-- ==== Sys2Proof/Word.lean ====
section
/-! DEFINITION. The word types of CORE's ports (R60, R61, R63): everything that crosses a port is a bit vector,
numbered LSB-0 (R10). -/

namespace Sys2Proof

/-- A 64-bit unsigned quantity: a command's `data`, a response's `data`, a control register, one word of `BV` (R10, R22). -/
abbrev Word := BitVec 64

/-- One byte of an item, outside CORE (R43(b)). -/
abbrev Byte := BitVec 8

/-- The 8-bit opcode field, command word bits 71:64 (R60). -/
abbrev OpField := BitVec 8

/-- A command word `CW[71:0]` = `{op, data}` (R60). -/
abbrev CmdWord := BitVec 72

/-- A response word `RW[65:0]` = `{status, data}` (R63). -/
abbrev RspWord := BitVec 66

end Sys2Proof
end

