-- ==== Sys2Proof/Syntax.lean ====
section
/-! DEFINITION. The commands of CORE-CMD 1.0 (R64), one constructor per row of `opcode_table.json`. -/

namespace Sys2Proof

/-- A command. The operand is the whole 64-bit `data` field, read in the operand form of the opcode (R62): H a hash, X a
plain value, I an element address compared whole. The three N-form commands carry no operand, since every value of
`data` "decodes to the same command" (R66). -/
inductive Instr where
  /-- `CSR.RD a` (R130). -/
  | csrRd (a : Word)
  /-- `BF.OBS h` (R93). -/
  | bfObs (h : Word)
  /-- `BF.CHK h` (R94). -/
  | bfChk (h : Word)
  /-- `BF.RDW q` (R95). -/
  | bfRdw (q : Word)
  /-- `LL.OBS h` (R102). -/
  | llObs (h : Word)
  /-- `LL.EST` (R111). -/
  | llEst
  /-- `LL.SEST` (R112). -/
  | llSest
  /-- `LL.HEST` (R113). -/
  | llHest
  /-- `LL.RDB j` (R103). -/
  | llRdb (j : Word)
  /-- `BR.POPCNT x` (R80). -/
  | brPopcnt (x : Word)
  /-- `BR.CTO x` (R81). -/
  | brCto (x : Word)
  /-- `BR.CTZ x` (R82). -/
  | brCtz (x : Word)
  deriving DecidableEq, Repr

end Sys2Proof
end

