-- ==== Sys2Proof/WellFormed.lean ====
section
/-! DEFINITION. What may be written down as a command: the opcodes and operand forms (R62, R64), and the check of an
assembly line (R68). -/

namespace Sys2Proof

/-- The twelve assigned opcodes (R64). -/
inductive Opcode where
  | csrRd | bfObs | bfChk | bfRdw | llObs | llEst | llSest | llHest | llRdb | brPopcnt | brCto | brCtz
  deriving DecidableEq, Repr

/-- The four readings of the `data` field (R62). -/
inductive OperandForm where
  /-- H: a hash value. -/
  | hash
  /-- X: a plain 64-bit value. -/
  | value
  /-- I: an element address, compared whole. -/
  | index
  /-- N: unused. -/
  | unused
  deriving DecidableEq, Repr

/-- The operand form of each opcode (R62, R64). -/
def Opcode.form : Opcode → OperandForm
  | .bfObs | .bfChk | .llObs => .hash
  | .brPopcnt | .brCto | .brCtz => .value
  | .csrRd | .bfRdw | .llRdb => .index
  | .llEst | .llSest | .llHest => .unused

/-- The mnemonics of an assembly line: those of R64 and the two aliases of R68. -/
inductive Mnemonic where
  | op (o : Opcode)
  /-- `BF.ADD h`, expands to `BF.OBS h`. -/
  | bfAdd
  /-- `LL.ADD h`, expands to `LL.OBS h`. -/
  | llAdd
  deriving DecidableEq, Repr

/-- The opcode a mnemonic stands for; an alias stands for the command it expands to (R68). -/
def Mnemonic.opcode : Mnemonic → Opcode
  | .op o => o
  | .bfAdd => .bfObs
  | .llAdd => .llObs

/-- One line `MNEMONIC operand` of a command list (R68), its operand as the literal stands in the text. -/
structure AsmLine where
  mnemonic : Mnemonic
  operand : Option Nat
  deriving DecidableEq, Repr

/-- R68: the operand is a 64-bit literal, and "N-form commands take no operand". -/
def AsmLine.wf (l : AsmLine) : Bool :=
  match l.mnemonic.opcode.form, l.operand with
  | .unused, none => true
  | .unused, some _ => false
  | _, none => false
  | _, some n => decide (n < 2 ^ 64)

/-- Every term of `Instr` is a well-formed command: "Every command word whose `op` is one of these twelve values is legal
whatever `data` holds" (R64), and the operand's type admits exactly the 2^64 values of `data`. -/
def Instr.wf : Instr → Bool
  | .csrRd _ | .bfObs _ | .bfChk _ | .bfRdw _ | .llObs _ | .llEst | .llSest | .llHest | .llRdb _
  | .brPopcnt _ | .brCto _ | .brCtz _ => true

end Sys2Proof
end

