-- ==== Sys2Proof/Decode.lean ====
section
/-! DEFINITION. The decoder, total over all 2^72 command words (R65), and after it the encoder and the assembler, written
from the same opcode map (R64). -/

namespace Sys2Proof

/-- The opcode map, `op` = `CW[71:64]` (R64). -/
def Opcode.code : Opcode → OpField
  | .csrRd => 0x01#8
  | .bfObs => 0x10#8
  | .bfChk => 0x11#8
  | .bfRdw => 0x12#8
  | .llObs => 0x20#8
  | .llEst => 0x21#8
  | .llSest => 0x22#8
  | .llHest => 0x23#8
  | .llRdb => 0x24#8
  | .brPopcnt => 0x30#8
  | .brCto => 0x31#8
  | .brCtz => 0x32#8

/-- The rows of the opcode map, in its order (R64). -/
def Opcode.all : List Opcode :=
  [.csrRd, .bfObs, .bfChk, .bfRdw, .llObs, .llEst, .llSest, .llHest, .llRdb, .brPopcnt, .brCto, .brCtz]

/-- The opcode an `op` field selects; `none` for the 244 reserved values (R65). -/
def Opcode.ofCode? (c : OpField) : Option Opcode :=
  Opcode.all.find? fun o => o.code == c

/-- The fields of a command word: bits 71:64 and 63:0 (R60). -/
def cmdOpField (w : CmdWord) : OpField := w.extractLsb' 64 8

def cmdDataField (w : CmdWord) : Word := w.extractLsb' 0 64

/-- The word `{op, data}` (R60). -/
def cmdWordOf (op : OpField) (data : Word) : CmdWord := op ++ data

/-- The command an assigned opcode and the `data` field stand for; an N-form command ignores `data` (R62, R66). -/
def Opcode.command (o : Opcode) (data : Word) : Instr :=
  match o with
  | .csrRd => .csrRd data
  | .bfObs => .bfObs data
  | .bfChk => .bfChk data
  | .bfRdw => .bfRdw data
  | .llObs => .llObs data
  | .llEst => .llEst
  | .llSest => .llSest
  | .llHest => .llHest
  | .llRdb => .llRdb data
  | .brPopcnt => .brPopcnt data
  | .brCto => .brCto data
  | .brCtz => .brCtz data

/-- Why a word is no command: its opcode is reserved (R65). -/
inductive DecodeReject where
  | reservedOpcode (op : OpField)
  deriving DecidableEq, Repr

/-- The decoder, which "looks at `op` alone" (R60). -/
def decode (w : CmdWord) : Except DecodeReject Instr :=
  match Opcode.ofCode? (cmdOpField w) with
  | some o => .ok (o.command (cmdDataField w))
  | none => .error (.reservedOpcode (cmdOpField w))

/-- A table word's decoding: CORE has one command length, one 72-bit word, so the table's bit numbers are the command
word's own (R60, R67). -/
def decodeTableWord (nbits w : Nat) : Option Instr :=
  match decode (BitVec.ofNat 72 (w % 2 ^ nbits)) with
  | .ok i => some i
  | .error _ => none

/-- A command's row of the opcode map. -/
def Instr.opcode : Instr → Opcode
  | .csrRd _ => .csrRd
  | .bfObs _ => .bfObs
  | .bfChk _ => .bfChk
  | .bfRdw _ => .bfRdw
  | .llObs _ => .llObs
  | .llEst => .llEst
  | .llSest => .llSest
  | .llHest => .llHest
  | .llRdb _ => .llRdb
  | .brPopcnt _ => .brPopcnt
  | .brCto _ => .brCto
  | .brCtz _ => .brCtz

/-- A command's `data` field; an N-form command assembles `data` = 0 (R66, R68). -/
def Instr.data : Instr → Word
  | .csrRd a => a
  | .bfObs h => h
  | .bfChk h => h
  | .bfRdw q => q
  | .llObs h => h
  | .llEst => 0#64
  | .llSest => 0#64
  | .llHest => 0#64
  | .llRdb j => j
  | .brPopcnt x => x
  | .brCto x => x
  | .brCtz x => x

/-- The command word of a command (R60, R64, R68). -/
def encode (i : Instr) : CmdWord := cmdWordOf i.opcode.code i.data

/-- The command an assembly line stands for, aliases expanded (R68); `none` for a line that is not well formed. -/
def assemble (l : AsmLine) : Option Instr :=
  if l.wf then some (l.mnemonic.opcode.command (BitVec.ofNat 64 (l.operand.getD 0))) else none

end Sys2Proof
end

