-- ==== Sys2Proof/Config.lean ====
section
/-! DEFINITION. What an implementation fixes: CORE's two elaboration-time parameters (R6), as a type that has no illegal
value, and the one function the environment supplies (R2(d), R30(b)). -/

namespace Sys2Proof

/-- The two Bloom filter widths CORE-CMD 1.0 admits (R6, R9); any other `BF_M` is a `ConfigurationError` (R7). -/
inductive BloomWidth where
  | w256
  | w65536
  deriving DecidableEq, Repr

/-- The parameters of one instance, fixed when it is built and never changed afterwards (R6): `BF_M`, and `LL_P` with
`LL_B` = 2^`LL_P`, 0 <= `LL_P` <= 63. Every value is a legal configuration (`93_implementation_defined.md` U7). -/
structure Params where
  width : BloomWidth
  llP : Fin 64
  deriving DecidableEq, Repr

/-- `hash64`, the HashProvider, external to CORE (R2(d), R5(a)): a function, so deterministic, and nothing else is known
of it (log entry 7). No command reads it; only the host's pseudo-command `OBSERVE.ITEM` does (R68). -/
opaque Config.hash64 : List Byte → Word

end Sys2Proof
end

