-- ==== Sys2Proof/Machine/State.lean ====
section
/-! DEFINITION. The state of one CORE instance (`10_state.md`), its ports (R61), the reasons a step can stop, and reset
(R31). -/

namespace Sys2Proof.Machine

/-- The response statuses (R63). Status 3 "never produced" has no constructor. -/
inductive RspStatus where
  /-- 0 `OK`. -/
  | ok
  /-- 1 `ILLEGAL_CMD`. -/
  | illegalCmd
  /-- 2 `BAD_INDEX`. -/
  | badIndex
  deriving DecidableEq, Repr

/-- One response (R63). -/
structure Response where
  status : RspStatus
  data : Word
  deriving DecidableEq, Repr

/-- The two runtime exceptions (R140). `ConfigurationError`, the third, has no instance to be raised on (R141): it is the
error of `construct`. -/
inductive Exception where
  /-- `IllegalCommand` (R142): a command word whose opcode is reserved. -/
  | illegalCommand
  /-- `BadIndex` (R143): an I-form operand out of range. -/
  | badIndex
  deriving DecidableEq, Repr

/-- What is sampled at one rising edge of `clk` (R61), but for the response word, which the state gives. CORE's own two
outputs among these bits are left free at each edge, since no rule fixes when they are 1 (log entry 3). -/
structure Edge where
  rst : Bool
  cmdValid : Bool
  /-- CORE's output; it may be 0 "for any finite time" (R61(d)). -/
  cmdReady : Bool
  cmdOp : OpField
  cmdData : Word
  /-- CORE's output where a response waits; where none does, `rsp_valid` is 0 whatever this bit says
  (`State.rspValid`). -/
  rspValid : Bool
  rspReady : Bool
  deriving DecidableEq, Repr

/-- An array of `w`-bit elements as (index, element) pairs, an unlisted index reading as 0 (R31). One canonical form:
indices strictly rising, no listed element 0 (`Cells.wf`). -/
abbrev Cells (w : Nat) := List (Nat × BitVec w)

/-- Everything the spec gives the machine, and its inputs. -/
structure State where
  /-- The elaboration-time parameters (R6), which the hardwired register `CONFIG` shows (R25). No command and no reset
  changes them. -/
  params : Params
  /-- `BV`, the BitVector, by its 64-bit words (R22, R41). -/
  bv : Cells 64
  /-- `BK`, the BucketArray of 7-bit counters (R23, R42). -/
  bk : Cells 7
  /-- `STATUS.ILL`, sticky (R26). -/
  ill : Bool
  /-- `STATUS.IDX`, sticky (R26). -/
  idx : Bool
  /-- The responses produced and not yet delivered, oldest first: the head is what the response port offers when it
  offers one (R61(b)(c)). -/
  rsp : List Response
  /-- The inputs: the rising edges still to come, first the next one (R61, R167). -/
  edges : List Edge
  deriving DecidableEq, Repr

/-- The reasons the machine can stop with a fault: none. Every command completes with a response (R61(c), R166), an
exception being a response too (R146). -/
inductive Fault where
  deriving DecidableEq, Repr

/-- The reasons a command can have no meaning. -/
inductive Refusal where
  /-- The model has no meaning yet for the command of this mnemonic. Raised by `exec`'s refused arms alone; safe. There is
  no such arm: every command has its meaning. -/
  | notModelled (mnemonic : String)
  deriving DecidableEq, Repr

/-- The state after construct and after every reset event (R31, R160): everything empty and clear, the port idle. -/
def State.resetOf (p : Params) : State :=
  { params := p, bv := [], bk := [], ill := false, idx := false, rsp := [], edges := [] }

/-- The parameters of the one instance that `State.reset` stands for: `BF_M` = 256, `LL_B` = 16, the first configuration of
R25's examples. DESIGN CHOICE: the spec makes the parameters required arguments (log entry 1); every statement of the
package holds for all parameters. -/
def defaultParams : Params := { width := .w256, llP := 4 }

/-- The machine right after reset (R31). -/
def State.reset : State := State.resetOf defaultParams

end Sys2Proof.Machine
end

