-- ==== Sys2Proof/Machine/Parameters.lean ====
section
/-! DEFINITION. The constants derived from the parameters (R6, R8) and construction (R7, R141). -/

namespace Sys2Proof

/-- `BF_M`, the filter width m in bits (R6). -/
def Params.bfM (p : Params) : Nat :=
  match p.width with
  | .w256 => 256
  | .w65536 => 65536

/-- `BF_W` = log2(`BF_M`), the sub-hash width w (R6). -/
def Params.bfW (p : Params) : Nat :=
  match p.width with
  | .w256 => 8
  | .w65536 => 16

/-- `BF_K`, the number of sub-hashes k (R6). -/
def Params.bfK (p : Params) : Nat :=
  match p.width with
  | .w256 => 2
  | .w65536 => 4

/-- The number of 64-bit words of `BV`: 4 or 1024 (R22). -/
def Params.bvWords (p : Params) : Nat := p.bfM / 64

/-- `LL_B`, the bucket count B = 2^P (R6). -/
def Params.llB (p : Params) : Nat := 2 ^ p.llP.val

/-- The bias constant alpha(B), decimal literals exact (R8). -/
def alpha (b : Nat) : Rat :=
  if b = 16 then 673 / 1000
  else if b = 32 then 697 / 1000
  else if b = 64 then 709 / 1000
  else (7213 / 10000) / (1 + (1079 / 1000) / b)

/-- `ALPHA` (R6). -/
def Params.alpha (p : Params) : Rat := Sys2Proof.alpha p.llB

end Sys2Proof

namespace Sys2Proof.Machine

/-- goest's one error kind, without payload (R141, R145). -/
inductive ConfigurationError where
  | configurationError
  deriving DecidableEq, Repr

/-- The supported Bloom widths (R7, R9). -/
def widthOf? (bfM : Nat) : Option BloomWidth :=
  if bfM = 256 then some .w256 else if bfM = 65536 then some .w65536 else none

/-- The exponent P, 0 <= P <= 63, of a bucket count 2^P; none for any other number (R7). -/
def log2Of? (llB : Nat) : Option (Fin 64) :=
  (List.finRange 64).find? fun p => 2 ^ p.val == llB

/-- The parameters two natural numbers name, if they are legal (R6, R7). -/
def paramsOf? (bfM llB : Nat) : Option Params :=
  match widthOf? bfM, log2Of? llB with
  | some w, some p => some { width := w, llP := p }
  | _, _ => none

/-- Construction, total: an instance in its reset state, or `ConfigurationError` and no instance (R7, R141). -/
def construct (bfM llB : Nat) : Except ConfigurationError State :=
  match paramsOf? bfM llB with
  | some p => .ok (State.resetOf p)
  | none => .error .configurationError

end Sys2Proof.Machine
end

