-- ==== Sys2Proof/Machine/Flags.lean ====
section
/-! DEFINITION. The two control registers as words (R25, R26) and the setting of the sticky flags (R26). CORE has no
condition codes (R27). -/

namespace Sys2Proof.Machine

/-- `CONFIG` = `(LL_P << 8) | (BF_K << 5) | BF_W`, hardwired from the parameters (R25). -/
def configWord (p : Params) : Word :=
  (BitVec.ofNat 64 p.llP.val <<< 8) ||| (BitVec.ofNat 64 p.bfK <<< 5) ||| BitVec.ofNat 64 p.bfW

/-- `STATUS`: bit 0 `ILL`, bit 1 `IDX`, bits 63:2 zero (R26). -/
def statusWord (s : State) : Word :=
  (if s.ill then 1#64 else 0#64) ||| (if s.idx then 2#64 else 0#64)

/-- Sets the sticky flag of an exception (R142, R143). Nothing but reset clears one (R26). -/
def State.setFlag (s : State) (e : Exception) : State :=
  match e with
  | .illegalCommand => { s with ill := true }
  | .badIndex => { s with idx := true }

end Sys2Proof.Machine
end

