-- ==== Sys2Proof/Machine/Ops.lean ====
section
/-! DEFINITION. The named operations over the two arrays (R40 to R46), the response port (R61, R63), exceptions
(R142, R143, R146) and reset (R160). -/

namespace Sys2Proof.Machine

/-! ## One array -/

/-- The element at an index; 0 where nothing is listed (R31). -/
def Cells.read {w : Nat} : Cells w → Nat → BitVec w
  | [], _ => 0#w
  | (a, x) :: rest, i => if i = a then x else Cells.read rest i

/-- Puts an element in front, but for 0, which is never listed. -/
def Cells.put {w : Nat} (i : Nat) (v : BitVec w) (rest : Cells w) : Cells w :=
  if v = 0#w then rest else (i, v) :: rest

/-- Writes the element at an index, keeping the canonical form. -/
def Cells.write {w : Nat} : Cells w → Nat → BitVec w → Cells w
  | [], i, v => Cells.put i v []
  | (a, x) :: rest, i, v =>
    if i < a then Cells.put i v ((a, x) :: rest)
    else if i = a then Cells.put i v rest
    else (a, x) :: Cells.write rest i v

/-- The canonical form, from an index `lo` on: indices strictly rising and below `bound`, no listed element 0. -/
def Cells.wfFrom {w : Nat} (bound : Nat) : Nat → Cells w → Bool
  | _, [] => true
  | lo, (a, x) :: rest => decide (lo ≤ a) && decide (a < bound) && decide (x ≠ 0#w) && Cells.wfFrom bound (a + 1) rest

/-- The canonical form of an array of `bound` elements. -/
def Cells.wf {w : Nat} (bound : Nat) (c : Cells w) : Bool := Cells.wfFrom bound 0 c

/-! ## BV and BK -/

/-- `MemRead(BV, q, 64)`: word q of `BV` (R11, R40). -/
def State.bvWord (s : State) (q : Nat) : Word := s.bv.read q

/-- `BV[i]`: bit `i & 63` of word `i >> 6` (R41). -/
def State.bvBit (s : State) (i : Nat) : Bool := (s.bvWord (i / 64)).getLsbD (i % 64)

/-- `BV[i] <- 1` (R11, R93), in the layout of R41. -/
def State.setBvBit (s : State) (i : Nat) : State :=
  { s with bv := s.bv.write (i / 64) (s.bvWord (i / 64) ||| (1#64 <<< (i % 64))) }

/-- `BV[i] <- 1` for each of several bit indices (R93). -/
def State.setBvBits (s : State) (is : List Nat) : State := is.foldl State.setBvBit s

/-- `BK[j]`, a 7-bit counter (R11, R23). -/
def State.bkCounter (s : State) (j : Nat) : BitVec 7 := s.bk.read j

/-- `BK[j] <- max(BK[j], rank)` (R102). -/
def State.raiseBk (s : State) (j rank : Nat) : State :=
  { s with bk := s.bk.write j (BitVec.ofNat 7 (max (s.bkCounter j).toNat rank)) }

/-- The `LL_B` counters, `BK[0]` first (R110). -/
def State.buckets (s : State) : List Nat := (List.range s.params.llB).map fun j => (s.bkCounter j).toNat

/-! ## The response port -/

/-- `respond(status, value)`: the one response of a command (R11, R61(c), R63), last in the order of delivery. -/
def State.respond (s : State) (status : RspStatus) (value : Word) : State :=
  { s with rsp := s.rsp ++ [{ status := status, data := value }] }

/-- The status code, response word bits 65:64 (R63). -/
def RspStatus.code : RspStatus → BitVec 2
  | .ok => 0#2
  | .illegalCmd => 1#2
  | .badIndex => 2#2

/-- The response word `{status, data}` (R63). -/
def Response.word (r : Response) : RspWord := r.status.code ++ r.data

/-- `rsp_valid` at an edge: CORE offers a response word (R61); never one that no command produced (R61(c)). -/
def State.rspValid (s : State) (e : Edge) : Bool := e.rspValid && !s.rsp.isEmpty

/-- `{rsp_status, rsp_data}` at an edge with `rsp_valid` = 1; not defined otherwise (R61,
`93_implementation_defined.md` U11). -/
def State.rspWord? (s : State) (e : Edge) : Option RspWord :=
  if s.rspValid e then s.rsp.head?.map Response.word else none

/-- The oldest response leaves the port (R61(b)). -/
def State.dropResponse (s : State) : State := { s with rsp := s.rsp.tail }

/-! ## Exceptions and reset -/

/-- The response status of an exception (R140). -/
def Exception.status : Exception → RspStatus
  | .illegalCommand => .illegalCmd
  | .badIndex => .badIndex

/-- Taking an exception, "exactly this and nothing more" (R146): the sticky flag is set and the error response produced,
its data 0 (R142, R143). Nothing is saved and control goes nowhere, so there is no return (R147). -/
def State.raise (s : State) (e : Exception) : State := (s.setFlag e).respond e.status 0#64

/-- A reset event: the reset state of the same configuration (R160); undelivered responses are abandoned (R162). The
edges still to come are the environment's and stay. -/
def State.resetEvent (s : State) : State := { State.resetOf s.params with edges := s.edges }

end Sys2Proof.Machine
end

