-- ==== Sys2Proof/Machine/Operands.lean ====
section
/-! DEFINITION. The operand readings (R62, R69): the three bit-run functions (R83), the slicing of an H-form operand
(R90 to R92, R100, R101) and the range comparison of an I-form operand (R46, R66). -/

namespace Sys2Proof.Machine

/-! ## Bit runs (R83) -/

/-- The number of i in 0 .. 63 with `x[i]` = 1. -/
def popcnt (x : Word) : Nat := (List.range 64).countP fun i => x.getLsbD i

/-- The length of the run of 1-bits that starts at bit 0. -/
def cto (x : Word) : Nat := ((List.range 64).takeWhile fun i => x.getLsbD i).length

/-- The length of the run of 0-bits that starts at bit 0. -/
def ctz (x : Word) : Nat := ((List.range 64).takeWhile fun i => !x.getLsbD i).length

/-! ## Sub-hashes (R92) -/

/-- `s_j = h[63 - j*w : 64 - (j+1)*w]`. -/
def subHash (w : Nat) (h : Word) (j : Nat) : Nat := (h.extractLsb' (64 - (j + 1) * w) w).toNat

/-- `s_0 .. s_(k-1)`, most significant first, with w = `BF_W` and k = `BF_K`. -/
def subHashes (p : Params) (h : Word) : List Nat := (List.range p.bfK).map (subHash p.bfW h)

/-! ## Bucket index and rank -/

/-- `idx = h & (B - 1)`, the low P bits of h (R100, R102). -/
def bucketIndex (p : Params) (h : Word) : Nat := (h &&& BitVec.ofNat 64 (p.llB - 1)).toNat

/-- `rank = cto(h >> P)` (R101): trailing ones, no "+1". -/
def rank (p : Params) (h : Word) : Nat := cto (h >>> p.llP.val)

/-! ## Element addresses: all 64 bits are compared (R46, R66) -/

/-- Word q of `BV` where q < `BF_M` / 64 (R95). -/
def State.bvWordAt? (s : State) (q : Word) : Option Word :=
  if q.toNat < s.params.bvWords then some (s.bvWord q.toNat) else none

/-- Counter j where j < `LL_B`, zero-extended to 64 bits (R42, R103). -/
def State.bkAt? (s : State) (j : Word) : Option Word :=
  if j.toNat < s.params.llB then some ((s.bkCounter j.toNat).setWidth 64) else none

/-- `csr[a]`: address 0 is `CONFIG`, 1 is `STATUS`, every other is unassigned (R24). -/
def State.csr? (s : State) (a : Word) : Option Word :=
  if a = 0#64 then some (configWord s.params)
  else if a = 1#64 then some (statusWord s)
  else none

/-- The end of an I-form command: the element as the result, or `BadIndex` where the address is out of range (R143). -/
def State.respondIndexed (s : State) (element : Option Word) : State :=
  match element with
  | some v => s.respond .ok v
  | none => s.raise .badIndex

end Sys2Proof.Machine
end

