-- ==== Sys2Proof/Machine/BitRun.lean ====
section
/-! DEFINITION. BRA, the bit-run analyzer commands (`40_bitrun_analyzer.md`). -/

namespace Sys2Proof.Machine

/-- `BR.POPCNT x` (R80). -/
def execBrPopcnt (x : Word) (s : State) : Host.Outcome State Fault Refusal :=
  .next (s.respond .ok (BitVec.ofNat 64 (popcnt x)))

/-- `BR.CTO x` (R81). -/
def execBrCto (x : Word) (s : State) : Host.Outcome State Fault Refusal :=
  .next (s.respond .ok (BitVec.ofNat 64 (cto x)))

/-- `BR.CTZ x` (R82). -/
def execBrCtz (x : Word) (s : State) : Host.Outcome State Fault Refusal :=
  .next (s.respond .ok (BitVec.ofNat 64 (ctz x)))

end Sys2Proof.Machine
end

