-- ==== Sys2Proof/Machine/Bloom.lean ====
section
/-! DEFINITION. BFC, the Bloom filter commands (`41_bloom_filter.md`). -/

namespace Sys2Proof.Machine

/-- `BF.OBS h`: the k selected bits of `BV` become 1 (R93). -/
def execBfObs (h : Word) (s : State) : Host.Outcome State Fault Refusal :=
  .next ((s.setBvBits (subHashes s.params h)).respond .ok 0#64)

/-- `BF.CHK h`: 1 iff all k selected bits are set (R94). -/
def execBfChk (h : Word) (s : State) : Host.Outcome State Fault Refusal :=
  .next (s.respond .ok (if (subHashes s.params h).all s.bvBit then 1#64 else 0#64))

/-- `BF.RDW q`: one word of `BV` (R95). -/
def execBfRdw (q : Word) (s : State) : Host.Outcome State Fault Refusal :=
  .next (s.respondIndexed (s.bvWordAt? q))

end Sys2Proof.Machine
end

