-- ==== Sys2Proof/Machine/Numerics.lean ====
section
/-! DEFINITION. The arithmetic of the estimate engine, exact (R12, R110 to R117). The real numbers 2^(a/b) and ln are
never approximated: each result is decided by integer and rational comparisons, as R115 shows. That the results are
those of the real formulas is proved in `Laws/Exp2.lean` and `Laws/Ln.lean`. -/

namespace Sys2Proof.Machine

/-! ## Rounding (R12) -/

/-- `round(x)` = `floor(x + 1/2)` of a rational x >= 0: a tie goes up. -/
def roundHalfUp (x : Rat) : Nat := (x + 1 / 2).floor.toNat

/-- `sat64(n)` = `min(n, 2^64 - 1)`. -/
def sat64 (n : Nat) : Word := BitVec.ofNat 64 (min n (2 ^ 64 - 1))

/-! ## `round(q * 2^(a/b))` (R115) -/

/-- The largest n below `acc + 2^bits` with `test n`, built from its most significant bit, for a test that holds at `acc`
and, once false, stays false. -/
def largestSuch (test : Nat → Bool) : (bits acc : Nat) → Nat
  | 0, acc => acc
  | bits + 1, acc => largestSuch test bits (if test (acc + 2 ^ bits) then acc + 2 ^ bits else acc)

/-- `(2n-1)^b <= (2q)^b * 2^a`, that is `n <= q * 2^(a/b) + 1/2`, over the integers (R115). -/
def roundTest (q : Rat) (a b n : Nat) : Bool :=
  decide (((2 * n - 1) * q.den) ^ b ≤ (2 * q.num.toNat) ^ b * 2 ^ a)

/-- `round(q * 2^(a/b))` for a rational q > 0 and b >= 1: the largest n the test admits. Its bits are those that
`q * 2^(a/b) + 1/2` can need. -/
def roundMulExp2 (q : Rat) (a b : Nat) : Nat :=
  largestSuch (roundTest q a b) (q.num.toNat.log2 + a / b + 3) 0

/-! ## `round(b * ln(b/e))` (R113, R115) -/

/-- The search of `roundMulLn`, for z = (b-e)/(b+e): ln(b/e) is the sum over i of 2*z^(2i+1)/(2i+1). With `sum` the first
`i` terms and `pow` = z^(2i+1), ln(b/e) lies between `sum` and `sum + 2*pow/(1-z^2)`. As soon as both ends round to the
same integer, that is the result; else one more term is taken: "evaluating `ln` to enough digits" (R115). -/
def lnSearch (b z : Rat) : (fuel i : Nat) → (pow sum : Rat) → Nat
  | 0, _, _, sum => roundHalfUp (b * sum)
  | fuel + 1, i, pow, sum =>
    if roundHalfUp (b * sum) = roundHalfUp (b * (sum + 2 * pow / (1 - z * z))) then roundHalfUp (b * sum)
    else lnSearch b z fuel (i + 1) (pow * (z * z)) (sum + 2 * pow / (2 * i + 1))

/-- A number of terms that always suffices (`Laws/Ln.lean`), far above what is ever taken. -/
def lnFuel (b : Nat) : Nat := 1024 * b ^ 5

/-- `round(b * ln(b/e))` for 1 <= e <= b. -/
def roundMulLn (b e : Nat) : Nat :=
  if e = b then 0
  else
    let z : Rat := ((b : Rat) - e) / (b + e)
    lnSearch b z (lnFuel b) 0 z 0

/-! ## The common quantities (R110), of the list of all counters -/

/-- `S`. -/
def sumOf (bk : List Nat) : Nat := bk.sum

/-- `emptyCount`. -/
def emptyCount (bk : List Nat) : Nat := bk.count 0

/-- `Z` = the sum of 2^(-BK[j]). -/
def harmonicSum (bk : List Nat) : Rat := (bk.map fun v => 1 / (2 : Rat) ^ v).sum

/-- `cutoff` = floor(9*B/10). -/
def cutoff (b : Nat) : Nat := 9 * b / 10

/-- `S_c`: the sum of the `cutoff` smallest values, from a sorted copy (R112). -/
def prefixSum (b : Nat) (bk : List Nat) : Nat := ((bk.insertionSort (· ≤ ·)).take (cutoff b)).sum

/-- `raw` = 2 * B * ALPHA * (B / Z) (R113). -/
def rawEstimate (p : Params) (bk : List Nat) : Rat := 2 * p.llB * p.alpha * (p.llB / harmonicSum bk)

/-! ## The three estimates, before `sat64` -/

/-- `round(ALPHA * B * 2^(S / B))` (R111). -/
def estimate (p : Params) (bk : List Nat) : Nat := roundMulExp2 (p.alpha * p.llB) (sumOf bk) p.llB

/-- `round(0.79402 * cutoff * 2^(S_c / cutoff))`; 0 where cutoff = 0, that is B = 1 (R112). -/
def superEstimate (p : Params) (bk : List Nat) : Nat :=
  if cutoff p.llB = 0 then 0
  else roundMulExp2 (79402 / 100000 * cutoff p.llB) (prefixSum p.llB bk) (cutoff p.llB)

/-- The two regimes of HyperEstimate, told apart by an exact and strict comparison (R113). -/
def hyperEstimate (p : Params) (bk : List Nat) : Nat :=
  if rawEstimate p bk < 5 / 2 * p.llB ∧ 1 ≤ emptyCount bk then roundMulLn p.llB (emptyCount bk)
  else roundHalfUp (rawEstimate p bk)

end Sys2Proof.Machine
end

