-- ==== Sys2Proof/Machine/Cardinality.lean ====
section
/-! DEFINITION. LLE, the cardinality estimator commands (`42_cardinality_observe.md`, `43_cardinality_estimates.md`). -/

namespace Sys2Proof.Machine

/-- `LL.OBS h`: the selected counter is raised to the rank, never lowered (R102). -/
def execLlObs (h : Word) (s : State) : Host.Outcome State Fault Refusal :=
  .next ((s.raiseBk (bucketIndex s.params h) (rank s.params h)).respond .ok 0#64)

/-- `LL.EST` (R111). -/
def execLlEst (s : State) : Host.Outcome State Fault Refusal :=
  .next (s.respond .ok (sat64 (estimate s.params s.buckets)))

/-- `LL.SEST` (R112). -/
def execLlSest (s : State) : Host.Outcome State Fault Refusal :=
  .next (s.respond .ok (sat64 (superEstimate s.params s.buckets)))

/-- `LL.HEST` (R113). -/
def execLlHest (s : State) : Host.Outcome State Fault Refusal :=
  .next (s.respond .ok (sat64 (hyperEstimate s.params s.buckets)))

/-- `LL.RDB j`: one counter (R103). -/
def execLlRdb (j : Word) (s : State) : Host.Outcome State Fault Refusal :=
  .next (s.respondIndexed (s.bkAt? j))

end Sys2Proof.Machine
end

