-- ==== Sys2Proof/Machine/System.lean ====
section
/-! DEFINITION. The system command (`44_system_commands.md`). -/

namespace Sys2Proof.Machine

/-- `CSR.RD a` (R130). -/
def execCsrRd (a : Word) (s : State) : Host.Outcome State Fault Refusal :=
  .next (s.respondIndexed (s.csr? a))

end Sys2Proof.Machine
end

