-- ==== Sys2Proof/Machine/Dispatch.lean ====
section
/-! DEFINITION. Each command's meaning (R64). -/

namespace Sys2Proof.Machine

def exec (i : Instr) (s : State) : Host.Outcome State Fault Refusal :=
  match i with
  | .csrRd a => Sys2Proof.Machine.execCsrRd a s
  | .bfObs h => Sys2Proof.Machine.execBfObs h s
  | .bfChk h => Sys2Proof.Machine.execBfChk h s
  | .bfRdw q => Sys2Proof.Machine.execBfRdw q s
  | .llObs h => Sys2Proof.Machine.execLlObs h s
  | .llEst => Sys2Proof.Machine.execLlEst s
  | .llSest => Sys2Proof.Machine.execLlSest s
  | .llHest => Sys2Proof.Machine.execLlHest s
  | .llRdb j => Sys2Proof.Machine.execLlRdb j s
  | .brPopcnt x => Sys2Proof.Machine.execBrPopcnt x s
  | .brCto x => Sys2Proof.Machine.execBrCto x s
  | .brCtz x => Sys2Proof.Machine.execBrCtz x s

end Sys2Proof.Machine
end

