-- ==== Sys2Proof/Machine/Ports.lean ====
section
/-! DEFINITION. The command and response ports at one rising edge of `clk` (R61). -/

namespace Sys2Proof.Machine

/-- The command word accepted at an edge: `rst` = 0 and `cmd_valid` = `cmd_ready` = 1 (R61(a)). -/
def Edge.accepted? (e : Edge) : Option CmdWord :=
  if !e.rst && e.cmdValid && e.cmdReady then some (cmdWordOf e.cmdOp e.cmdData) else none

/-- The response delivered at an edge: `rst` = 0 and `rsp_valid` = `rsp_ready` = 1 (R61(b)). -/
def State.delivered? (s : State) (e : Edge) : Option Response :=
  if !e.rst && e.rspValid && e.rspReady then s.rsp.head? else none

/-- One accepted command word, executed whole (R48): the command it decodes to, or `IllegalCommand` (R65, R142). -/
def runWord (w : CmdWord) (s : State) : Host.Outcome State Fault Refusal :=
  match decode w with
  | .ok i => exec i s
  | .error _ => .next (s.raise .illegalCommand)

/-- The response that leaves at this edge, if any, is gone before the edge's command puts its own behind it: `rsp_valid`
is as sampled at the edge (R61(b)(c)). -/
def deliver (e : Edge) (s : State) : State :=
  if e.rspValid && e.rspReady then s.dropResponse else s

/-- One rising edge: reset has priority over everything (R145, R162); else a delivery and an acceptance may both happen
(R61(a)(b)). -/
def atEdge (e : Edge) (s : State) : Host.Outcome State Fault Refusal :=
  if e.rst then .next s.resetEvent
  else
    match e.accepted? with
    | some w => runWord w (deliver e s)
    | none => .next (deliver e s)

/-- The edge that offers a command word which CORE accepts, and takes no response. -/
def offer (w : CmdWord) : Edge :=
  { rst := false, cmdValid := true, cmdReady := true, cmdOp := cmdOpField w, cmdData := cmdDataField w,
    rspValid := false, rspReady := false }

end Sys2Proof.Machine
end

