-- ==== Sys2Proof/Machine/Step.lean ====
section
/-! DEFINITION. One step of the machine is one rising edge of `clk` (R61). -/

namespace Sys2Proof.Machine

/-- The next edge happens. With no edge left the run has ended (R167) and nothing changes. -/
def step (s : State) : Host.Outcome State Fault Refusal :=
  match s.edges with
  | [] => .next s
  | e :: rest => atEdge e { s with edges := rest }

/-- CORE fetches nothing (R21): a command comes in over the command port, so the word is offered at the very next edge. -/
def State.withFetchWord (s : State) (nbits w : Nat) : State :=
  { s with edges := offer (BitVec.ofNat 72 (w % 2 ^ nbits)) :: s.edges }

end Sys2Proof.Machine
end

