-- ==== Sys2Proof/Machine/Reference.lean ====
section
/-! DEFINITION. What the spec defines beside the commands: the reference function of R96, the merge of R168 and the
host's pseudo-command of R68. No step reads any of it. -/

namespace Sys2Proof.Machine

/-- `FalsePositiveProbability(n)` = (1 - e^(-k*(n+0.5)/(m-1)))^k, over the reals (R96): "a reference function, not a
command", hence not computable here. -/
noncomputable def falsePositiveProbability (p : Params) (n : Nat) : ℝ :=
  (1 - Real.exp (-(p.bfK : ℝ) * ((n : ℝ) + 1 / 2) / ((p.bfM : ℝ) - 1))) ^ p.bfK

/-- Element by element, an array combined into another. -/
def Cells.mergeWith {w : Nat} (f : BitVec w → BitVec w → BitVec w) (c d : Cells w) : Cells w :=
  d.foldl (fun acc e => acc.write e.1 (f (acc.read e.1) e.2)) c

/-- "bitwise OR of BitVectors" (R168). -/
def mergeBv (s t : State) : Cells 64 := Cells.mergeWith (fun x y => x ||| y) s.bv t.bv

/-- "per-bucket max of BucketArrays" (R168). -/
def mergeBk (s t : State) : Cells 7 := Cells.mergeWith (fun x y => BitVec.ofNat 7 (max x.toNat y.toNat)) s.bk t.bk

/-- The commands `OBSERVE.ITEM` expands to, for the hash value h of the item (R68). -/
def observeHash (h : Word) : List Instr := [.bfObs h, .llObs h]

/-- `OBSERVE.ITEM item`, expanded by the host, the hash computed once (R68). -/
def observeItem (item : List Byte) : List Instr := observeHash (Config.hash64 item)

end Sys2Proof.Machine
end

