-- ==== Sys2Proof/Safety.lean ====
section
/-! DEFINITION. The terms in which claims about runs are stated: the invariant of the reachable states (R23, R25, R32),
the commands an edge list accepts and the responses a run delivers (R61, R167), and the serial execution that R48 and
R61(e) take as the meaning of the ports. -/

namespace Sys2Proof.Machine

/-- What holds of every state a run from reset reaches, and rules the others out. -/
structure State.Inv (s : State) : Prop where
  /-- `BV` in canonical form, with words 0 .. `BF_M`/64 - 1 only (R22). -/
  bvForm : s.bv.wf s.params.bvWords = true
  /-- `BK` in canonical form, with counters 0 .. `LL_B` - 1 only (R23). -/
  bkForm : s.bk.wf s.params.llB = true
  /-- No counter exceeds 64 - `LL_P` (R23, R102). -/
  bkRange : ∀ j, (s.bkCounter j).toNat ≤ 64 - s.params.llP.val
  /-- `data` is 0 when `status` is 1 or 2 (R63). -/
  errorData : ∀ r ∈ s.rsp, r.status ≠ .ok → r.data = 0#64

/-- No reset event among these edges. -/
def noReset (es : List Edge) : Bool := es.all fun e => !e.rst

/-- The command words accepted at these edges, in order (R61(a)). -/
def acceptedWords (es : List Edge) : List CmdWord := es.filterMap Edge.accepted?

/-- Command words executed one at a time, each whole, in order: "this serial execution" of R48. -/
def runWords : List CmdWord → State → Host.Outcome State Fault Refusal
  | [], s => .next s
  | w :: ws, s =>
    match runWord w s with
    | .next t => runWords ws t
    | .fault r => .fault r
    | .refused r => .refused r

/-- The responses delivered at the first `n` edges, in order (R61(b), R167). -/
def deliveredBy : Nat → State → List Response
  | 0, _ => []
  | n + 1, s =>
    match s.edges, step s with
    | e :: _, .next t => (s.delivered? e).toList ++ deliveredBy n t
    | _, _ => []

/-- The state after `n` edges, where the machine gives one. -/
def after (n : Nat) (s : State) : Option State :=
  match Host.Core.run core n s with
  | .next t => some t
  | .fault _ => none
  | .refused _ => none

end Sys2Proof.Machine
end

