-- ==== Sys2Proof/Certificates/Slice0/Obligations.lean ====
section
/-! DEFINITION. The statements for the provers. A conclusion `exec i s = .next t` with `t` written as a record update of
`s` is the command's completion, its result and its frame at once: every field not named in the update is unchanged,
`BV` and `BK` whole. Statements about a run take its edges from the state (`State.edges`), so they hold for every timing
of the two ports. -/

open Sys2Proof Sys2Proof.Machine

/-! ## Encoding -/

/-- Decode and encode agree, for every command with every operand (R60, R62, R64, R66). -/
def Obligations.DecodeEncodeRoundTrip : Prop :=
  ∀ i : Instr, i.wf = true → decode (encode i) = .ok i

/-- The other direction: the encoder gives back the word that was decoded, but for the ignored `data` of an N-form
command, where it writes 0 (R66, log entry 11). -/
def Obligations.EncodeDecodeRoundTrip : Prop :=
  ∀ (w : CmdWord) (i : Instr), decode w = .ok i →
    cmdOpField (encode i) = cmdOpField w ∧
    (i.opcode.form ≠ .unused → encode i = w) ∧
    (i.opcode.form = .unused → cmdDataField (encode i) = 0#64)

/-- A few command words, written out from the spec's encoding (R64, R68). -/
def Obligations.WrittenWordsDecode : Prop :=
  decode 0x010000000000000001#72 = .ok (.csrRd 1#64) ∧
  decode 0x10123456789ABCDEF0#72 = .ok (.bfObs 0x123456789ABCDEF0#64) ∧
  decode 0x20DEADBEEF00000073#72 = .ok (.llObs 0xDEADBEEF00000073#64) ∧
  decode 0x21FFFFFFFFFFFFFFFF#72 = .ok .llEst ∧
  decode 0x310000000000000017#72 = .ok (.brCto 23#64) ∧
  decode 0x000000000000000000#72 = .error (.reservedOpcode 0x00#8)

/-- R65: exactly the twelve opcodes of R64 decode; the other 244 are reserved, among them 0x00 and 0xFF, and a word with
one of them raises `IllegalCommand`. -/
def Obligations.ExactlyTwelveOpcodesDecode : Prop :=
  (∀ w : CmdWord, (∃ i, decode w = .ok i) ↔
    cmdOpField w ∈ [0x01#8, 0x10#8, 0x11#8, 0x12#8, 0x20#8, 0x21#8, 0x22#8, 0x23#8, 0x24#8, 0x30#8, 0x31#8, 0x32#8]) ∧
  (∀ w : CmdWord, (¬∃ i, decode w = .ok i) → decode w = .error (.reservedOpcode (cmdOpField w))) ∧
  ((List.range 256).countP fun n => (Opcode.ofCode? (BitVec.ofNat 8 n)).isNone) = 244 ∧
  (∀ data : Word, ∀ op ∈ [0x00#8, 0xFF#8], decode (cmdWordOf op data) = .error (.reservedOpcode op)) ∧
  (∀ (w : CmdWord) (s : State), decode w = .error (.reservedOpcode (cmdOpField w)) →
    runWord w s = .next { s with ill := true, rsp := s.rsp ++ [{ status := .illegalCmd, data := 0#64 }] })

/-- R66: the `data` of an N-form command has no effect on what it decodes to, and the assembler writes 0; the discarded
bits of an H-form operand affect neither state nor result; an I-form operand is compared whole. -/
def Obligations.UnusedOperandBits : Prop :=
  (∀ data data' : Word, ∀ op ∈ [0x21#8, 0x22#8, 0x23#8],
    decode (cmdWordOf op data) = decode (cmdWordOf op data') ∧ (∃ i, decode (cmdWordOf op data) = .ok i)) ∧
  (∀ i : Instr, i.opcode.form = .unused → cmdDataField (encode i) = 0#64) ∧
  (∀ (s : State) (h h' : Word), s.params.width = .w256 → h.extractLsb' 48 16 = h'.extractLsb' 48 16 →
    exec (.bfObs h) s = exec (.bfObs h') s ∧ exec (.bfChk h) s = exec (.bfChk h') s) ∧
  (∀ (s : State) (a : Word), 2 ^ 63 ≤ a.toNat →
    exec (.bfRdw a) s = .next (s.raise .badIndex) ∧ exec (.llRdb a) s = .next (s.raise .badIndex) ∧
    exec (.csrRd a) s = .next (s.raise .badIndex))

/-- R63: status codes 0, 1 and 2, never 3; `status` in bits 65:64 and `data` in bits 63:0 of the response word; and in
every state that meets the invariant an error response carries data 0. -/
def Obligations.ResponseWordFields : Prop :=
  RspStatus.code .ok = 0#2 ∧ RspStatus.code .illegalCmd = 1#2 ∧ RspStatus.code .badIndex = 2#2 ∧
  (∀ r : Response, r.word.extractLsb' 64 2 = r.status.code ∧ r.word.extractLsb' 0 64 = r.data ∧ r.status.code ≠ 3#2) ∧
  (∀ s : State, s.Inv → ∀ r ∈ s.rsp, r.status.code = 1#2 ∨ r.status.code = 2#2 → r.data = 0#64)

/-! ## Construction, parameters, reset -/

/-- R7: construction is total; `ConfigurationError` for every other pair of numbers, the reset state of that
configuration for a legal pair. -/
def Obligations.ConstructValidates : Prop :=
  (∀ bfM llB : Nat, (bfM = 256 ∨ bfM = 65536) → (∃ p ≤ 63, llB = 2 ^ p) →
    ∃ q : Params, q.bfM = bfM ∧ q.llB = llB ∧ construct bfM llB = .ok (State.resetOf q)) ∧
  (∀ bfM llB : Nat, ¬((bfM = 256 ∨ bfM = 65536) ∧ ∃ p ≤ 63, llB = 2 ^ p) →
    construct bfM llB = .error .configurationError)

/-- R8: the bias constant. -/
def Obligations.BiasConstant : Prop :=
  alpha 16 = 673 / 1000 ∧ alpha 32 = 697 / 1000 ∧ alpha 64 = 709 / 1000 ∧
  (∀ b : Nat, b ≠ 16 → b ≠ 32 → b ≠ 64 → alpha b = (7213 / 10000) / (1 + (1079 / 1000) / b)) ∧
  alpha 1 = 7213 / 20790 ∧ alpha 2 = 7213 / 15395 ∧ alpha 1024 = 3693056 / 5125395

/-- R25: the fields of `CONFIG`; it never changes, not even at reset; the four words the rule gives. -/
def Obligations.ConfigRegister : Prop :=
  (∀ p : Params,
    (configWord p).extractLsb' 0 5 = BitVec.ofNat 5 p.bfW ∧ (configWord p).extractLsb' 5 3 = BitVec.ofNat 3 p.bfK ∧
    (configWord p).extractLsb' 8 6 = BitVec.ofNat 6 p.llP.val ∧ (configWord p).extractLsb' 14 50 = 0#50 ∧
    ((p.bfM = 256 ∧ p.bfW = 8 ∧ p.bfK = 2) ∨ (p.bfM = 65536 ∧ p.bfW = 16 ∧ p.bfK = 4)) ∧ p.llB = 2 ^ p.llP.val) ∧
  (∀ s t : State, step s = .next t → t.params = s.params) ∧
  configWord { width := .w256, llP := 4 } = 0x448#64 ∧ configWord { width := .w65536, llP := 4 } = 0x490#64 ∧
  configWord { width := .w256, llP := 10 } = 0xA48#64 ∧ configWord { width := .w65536, llP := 10 } = 0xA90#64

/-- R26: the bits of `STATUS`; `ILL` becomes 1 exactly when an accepted word has a reserved opcode, `IDX` exactly when an
I-form operand is out of range; once 1 a flag stays 1 until reset, and reset clears both. `CSR.RD 1` shows the flags, and
no other command's result depends on them. -/
def Obligations.StatusFlagsAreSticky : Prop :=
  (∀ s : State, (statusWord s).getLsbD 0 = s.ill ∧ (statusWord s).getLsbD 1 = s.idx ∧
    ∀ i, 2 ≤ i → (statusWord s).getLsbD i = false) ∧
  (∀ (s t : State) (e : Edge) (es : List Edge), s.edges = e :: es → step s = .next t →
    (e.rst = true → t.ill = false ∧ t.idx = false) ∧
    (e.rst = false →
      (t.ill = true ↔ s.ill = true ∨ ∃ w, e.accepted? = some w ∧ ¬∃ i, decode w = .ok i) ∧
      (t.idx = true ↔ s.idx = true ∨ ∃ w, e.accepted? = some w ∧
        ((∃ a, decode w = .ok (.csrRd a) ∧ 2 ≤ a.toNat) ∨
         (∃ q, decode w = .ok (.bfRdw q) ∧ s.params.bfM / 64 ≤ q.toNat) ∨
         (∃ j, decode w = .ok (.llRdb j) ∧ s.params.llB ≤ j.toNat))))) ∧
  (∀ s : State, exec (.csrRd 1#64) s = .next { s with rsp := s.rsp ++ [{ status := .ok, data := statusWord s }] }) ∧
  (∀ (i : Instr) (s t : State) (x y : Bool), (∀ a, i ≠ .csrRd a) → exec i s = .next t →
    ∃ u, exec i { s with ill := x, idx := y } = .next u ∧ u.rsp = t.rsp ∧ u.bv = t.bv ∧ u.bk = t.bk)

/-- Every reset event gives the reset state `State.resetOf` of its configuration, and in that state everything is empty,
every flag 0 and the port idle, and `CONFIG` is the hardwired value: the table of `10_state.md` section 5. That `construct`
answers the same state is ConstructValidates. The clause `edges := es`, that the inputs still to come stay, is the model's
choice (log entry 15) and no rule of the spec. -/
def Obligations.ResetValues : Prop :=
  (∀ (s : State) (e : Edge) (es : List Edge), s.edges = e :: es → e.rst = true →
    step s = .next { State.resetOf s.params with edges := es }) ∧
  ∀ p : Params,
    (∀ i, (State.resetOf p).bvBit i = false) ∧ (∀ j, (State.resetOf p).bkCounter j = 0#7) ∧
    (State.resetOf p).ill = false ∧ (State.resetOf p).idx = false ∧
    (State.resetOf p).csr? 0#64 = some (configWord p) ∧ (∀ e, (State.resetOf p).rspValid e = false) ∧ (State.resetOf p).rsp = []

/-- A reset edge accepts and delivers nothing, abandons every response not yet delivered, and leaves the reset state of the
same configuration: `70_reset_and_hazards.md` section 1. The clause `edges := es`, that the inputs still to come stay, is the
model's choice (log entry 15) and no rule of the spec. -/
def Obligations.ResetEdge : Prop :=
  ∀ (s : State) (e : Edge) (es : List Edge), s.edges = e :: es → e.rst = true →
    e.accepted? = none ∧ s.delivered? e = none ∧
    step s = .next { params := s.params, bv := [], bk := [], ill := false, idx := false, rsp := [], edges := es }

/-! ## The step -/

/-- A step runs the decoded command: at an edge without reset at which `cmd_valid` = `cmd_ready` = 1, the machine does
what the command does, after the response that leaves at this edge is gone (R61(a)(b), log entries 3 and 12). -/
def Obligations.StepRunsAcceptedCommand : Prop :=
  ∀ (s : State) (e : Edge) (es : List Edge) (i : Instr), s.edges = e :: es → e.rst = false → e.cmdValid = true →
    e.cmdReady = true → decode (cmdWordOf e.cmdOp e.cmdData) = .ok i →
    step s = exec i { s with edges := es, rsp := if e.rspValid && e.rspReady then s.rsp.tail else s.rsp }

/-- An edge at which nothing is accepted and no reset happens changes the response port alone (R61(a)(b)); with no edge
left nothing changes (log entry 5). -/
def Obligations.StepWithoutAcceptance : Prop :=
  (∀ s : State, s.edges = [] → step s = .next s) ∧
  (∀ (s : State) (e : Edge) (es : List Edge), s.edges = e :: es → e.rst = false →
    (e.cmdValid = false ∨ e.cmdReady = false) →
    step s = .next { s with edges := es, rsp := if e.rspValid && e.rspReady then s.rsp.tail else s.rsp })

/-- R166: the step is total, whatever the state and the word. -/
def Obligations.EveryStepCompletes : Prop :=
  (∀ s : State, ∃ t, step s = .next t) ∧ (∀ (w : CmdWord) (s : State), ∃ t, runWord w s = .next t)

/-- R61(b): at an edge with `rsp_valid` = 1 the port shows the oldest response; it is delivered when `rsp_ready` = 1 too;
until then `rsp_status` and `rsp_data` do not change, whatever else happens at the edge (log entry 3). -/
def Obligations.OfferedResponseIsStable : Prop :=
  ∀ (s t : State) (e : Edge) (es : List Edge) (r : Response), s.edges = e :: es → e.rst = false →
    s.rsp.head? = some r → step s = .next t →
    (s.rspValid e = true → s.rspWord? e = some r.word) ∧
    ((s.rspValid e && e.rspReady) = true → s.delivered? e = some r ∧ ∃ more, t.rsp = s.rsp.tail ++ more) ∧
    ((s.rspValid e && e.rspReady) = false →
      s.delivered? e = none ∧ ∀ e', t.rspValid e' = true → t.rspWord? e' = some r.word)

/-- R61(c): along every run without reset, each accepted command has produced exactly one response, delivered or waiting. -/
def Obligations.OneResponsePerCommand : Prop :=
  ∀ (n : Nat) (s t : State), noReset (s.edges.take n) = true → after n s = some t →
    (deliveredBy n s).length + t.rsp.length = s.rsp.length + (acceptedWords (s.edges.take n)).length

/-- R61(d)(e) and R48: whatever the timing of the two ports, a run without reset delivers the responses, in order, and
leaves the state that the accepted words give when executed one at a time, each whole. -/
def Obligations.PortTimingChangesNoResult : Prop :=
  ∀ (n : Nat) (s t : State), noReset (s.edges.take n) = true → after n s = some t →
    ∃ u, runWords (acceptedWords (s.edges.take n)) s = .next u ∧ deliveredBy n s ++ t.rsp = u.rsp ∧
      t.params = u.params ∧ t.bv = u.bv ∧ t.bk = u.bk ∧ t.ill = u.ill ∧ t.idx = u.idx

/-- The invariant holds after construct (R31). -/
def Obligations.ResetMeetsInvariant : Prop :=
  (∀ p : Params, (State.resetOf p).Inv) ∧ State.reset.Inv

/-- Every step keeps the invariant: canonical arrays within their sizes (R22, R23), no counter above 64 - P (R102), no
error response with data (R63). -/
def Obligations.StepKeepsInvariant : Prop :=
  ∀ s t : State, s.Inv → step s = .next t → t.Inv

/-- R32: no step without reset clears a bit or lowers a counter; a reset lowers all of them to 0. -/
def Obligations.StateOnlyGrowsUntilReset : Prop :=
  ∀ (s t : State) (e : Edge) (es : List Edge), s.Inv → s.edges = e :: es → step s = .next t →
    (e.rst = false →
      (∀ i, s.bvBit i = true → t.bvBit i = true) ∧ (∀ j, (s.bkCounter j).toNat ≤ (t.bkCounter j).toNat)) ∧
    (e.rst = true → (∀ i, t.bvBit i = false) ∧ ∀ j, t.bkCounter j = 0#7)

/-! ## Exceptions -/

/-- R142: an accepted word with a reserved opcode sets `ILL` and responds `ILLEGAL_CMD, 0`, and does nothing else. -/
def Obligations.IllegalCommandEntry : Prop :=
  ∀ (w : CmdWord) (s : State), (¬∃ i, decode w = .ok i) →
    runWord w s = .next { s with ill := true, rsp := s.rsp ++ [{ status := .illegalCmd, data := 0#64 }] }

/-- R143: an out-of-range operand, compared as a whole unsigned number, sets `IDX` and responds `BAD_INDEX, 0`, and does
nothing else. -/
def Obligations.BadIndexEntry : Prop :=
  ∀ (s : State) (a : Word),
    (s.params.bfM / 64 ≤ a.toNat → exec (.bfRdw a) s =
      .next { s with idx := true, rsp := s.rsp ++ [{ status := .badIndex, data := 0#64 }] }) ∧
    (s.params.llB ≤ a.toNat → exec (.llRdb a) s =
      .next { s with idx := true, rsp := s.rsp ++ [{ status := .badIndex, data := 0#64 }] }) ∧
    (2 ≤ a.toNat → exec (.csrRd a) s =
      .next { s with idx := true, rsp := s.rsp ++ [{ status := .badIndex, data := 0#64 }] })

/-- R146: a command that ends with an error response sets its sticky flag and produces that response, "exactly this and
nothing more". -/
def Obligations.ErrorsChangeNothingElse : Prop :=
  ∀ (w : CmdWord) (s t : State) (r : Response), runWord w s = .next t → t.rsp = s.rsp ++ [r] → r.status ≠ .ok →
    t = { s with ill := true, rsp := s.rsp ++ [{ status := .illegalCmd, data := 0#64 }] } ∨
    t = { s with idx := true, rsp := s.rsp ++ [{ status := .badIndex, data := 0#64 }] }

/-- The nine commands that raise nothing, for any operand in any state (R140). -/
def Obligations.NineCommandsNeverRaise : Prop :=
  ∀ (i : Instr) (s : State), i.opcode.form ≠ .index →
    ∃ t v, exec i s = .next t ∧ t.rsp = s.rsp ++ [{ status := .ok, data := v }] ∧ t.ill = s.ill ∧ t.idx = s.idx

/-! ## The system command -/

/-- R130: `CSR.RD` answers `CONFIG` at 0 and `STATUS` at 1, reading clears nothing; every other address is `BadIndex`. -/
def Obligations.CsrRdReadsRegisters : Prop :=
  (∀ a : Word, encode (.csrRd a) = cmdWordOf 0x01#8 a) ∧
  ∀ s : State,
    exec (.csrRd 0#64) s = .next { s with rsp := s.rsp ++ [{ status := .ok, data := configWord s.params }] } ∧
    exec (.csrRd 1#64) s = .next { s with rsp := s.rsp ++ [{ status := .ok, data := statusWord s }] } ∧
    (∀ a : Word, 2 ≤ a.toNat → exec (.csrRd a) s =
      .next { s with idx := true, rsp := s.rsp ++ [{ status := .badIndex, data := 0#64 }] })

/-! ## BFC -/

/-- R90 and R91: the slices of the two widths, and that with `BF_M` = 256 `h[47:0]` influences nothing. -/
def Obligations.SubHashSlices : Prop :=
  (∀ (p : Params) (h : Word), p.width = .w256 →
    subHashes p h = [(h.extractLsb' 56 8).toNat, (h.extractLsb' 48 8).toNat]) ∧
  (∀ (p : Params) (h h' : Word), p.width = .w256 → h.extractLsb' 48 16 = h'.extractLsb' 48 16 →
    subHashes p h = subHashes p h') ∧
  (∀ (p : Params) (h : Word), p.width = .w65536 →
    subHashes p h = [(h.extractLsb' 48 16).toNat, (h.extractLsb' 32 16).toNat, (h.extractLsb' 16 16).toNat,
      (h.extractLsb' 0 16).toNat]) ∧
  (∀ p : Params, p.width = .w256 → subHashes p 0x123456789ABCDEF0#64 = [18, 52]) ∧
  (∀ p : Params, p.width = .w65536 → subHashes p 0x123456789ABCDEF0#64 = [4660, 22136, 39612, 57072])

/-- R92: k slices of w bits, most significant first, non-overlapping, each a valid bit index. -/
def Obligations.GeneralSlicing : Prop :=
  ∀ (p : Params) (h : Word), p.bfK * p.bfW ≤ 64 ∧ 2 ^ p.bfW = p.bfM ∧ (subHashes p h).length = p.bfK ∧
    ∀ (j : Nat) (hj : j < (subHashes p h).length),
      (subHashes p h)[j] = h.toNat / 2 ^ (64 - (j + 1) * p.bfW) % 2 ^ p.bfW ∧ (subHashes p h)[j] < p.bfM

/-- R93: `BF.OBS h` sets the bits `BV[s_j]` and keeps every other bit; nothing else changes; the response is `OK, 0`. The
corner cases: observing again changes no bit, h = 0 sets bit 0 only, h = 2^64 - 1 sets bit `BF_M` - 1 only; and the
example. -/
def Obligations.BfObsSetsSelectedBits : Prop :=
  (∀ h : Word, encode (.bfObs h) = cmdWordOf 0x10#8 h) ∧
  (∀ (h : Word) (s : State), ∃ bv,
    exec (.bfObs h) s = .next { s with bv := bv, rsp := s.rsp ++ [{ status := .ok, data := 0#64 }] } ∧
    (∀ i, ({ s with bv := bv } : State).bvBit i = (s.bvBit i || decide (i ∈ subHashes s.params h))) ∧
    (s.Inv → ∀ t, exec (.bfObs h) { s with bv := bv } = .next t → t.bv = bv)) ∧
  (∀ p : Params, (∀ i, i ∈ subHashes p 0#64 ↔ i = 0) ∧ ∀ i, i ∈ subHashes p (BitVec.allOnes 64) ↔ i = p.bfM - 1) ∧
  (∀ (s t : State), s.params.width = .w256 → (∀ i, s.bvBit i = false) →
    exec (.bfObs 0x123456789ABCDEF0#64) s = .next t → t.bvWord 0 = 0x0010000000040000#64)

/-- R94: `BF.CHK h` answers 1 iff all k bits are set, else 0, and writes nothing but its response; it answers 1 at every
later state of a run without reset once an h with the same slices has been observed; on an empty filter it answers 0. -/
def Obligations.BfChkTestsSelectedBits : Prop :=
  (∀ h : Word, encode (.bfChk h) = cmdWordOf 0x11#8 h) ∧
  (∀ (h : Word) (s : State),
    ((∀ i ∈ subHashes s.params h, s.bvBit i = true) →
      exec (.bfChk h) s = .next { s with rsp := s.rsp ++ [{ status := .ok, data := 1#64 }] }) ∧
    ((∃ i ∈ subHashes s.params h, s.bvBit i = false) →
      exec (.bfChk h) s = .next { s with rsp := s.rsp ++ [{ status := .ok, data := 0#64 }] }) ∧
    ((∀ i, s.bvBit i = false) →
      exec (.bfChk h) s = .next { s with rsp := s.rsp ++ [{ status := .ok, data := 0#64 }] })) ∧
  (∀ (h h' : Word) (s t u : State) (n : Nat), subHashes s.params h' = subHashes s.params h → exec (.bfObs h) s = .next t →
    noReset (t.edges.take n) = true → after n t = some u →
    exec (.bfChk h') u = .next { u with rsp := u.rsp ++ [{ status := .ok, data := 1#64 }] })

/-- R95: `BF.RDW q` answers word q in the layout of R41, or `BadIndex` where q >= `BF_M` / 64. -/
def Obligations.BfRdwReadsWord : Prop :=
  (∀ q : Word, encode (.bfRdw q) = cmdWordOf 0x12#8 q) ∧
  (∀ (q : Word) (s : State), q.toNat < s.params.bfM / 64 → ∃ v,
    exec (.bfRdw q) s = .next { s with rsp := s.rsp ++ [{ status := .ok, data := v }] } ∧
    ∀ b < 64, v.getLsbD b = s.bvBit (64 * q.toNat + b)) ∧
  (∀ (q : Word) (s : State), s.params.bfM / 64 ≤ q.toNat →
    exec (.bfRdw q) s = .next { s with idx := true, rsp := s.rsp ++ [{ status := .badIndex, data := 0#64 }] }) ∧
  (∀ p : Params, (p.width = .w256 → p.bfM / 64 = 4) ∧ (p.width = .w65536 → p.bfM / 64 = 1024))

/-- R41: bit index i is bit `i & 63` of word `i >> 6`; word q holds bit indices 64q to 64q + 63. -/
def Obligations.BitVectorLayout : Prop :=
  ∀ s : State, (∀ i, s.bvBit i = (s.bvWord (i >>> 6)).getLsbD (i &&& 63)) ∧
    (∀ q, ∀ b < 64, (s.bvWord q).getLsbD b = s.bvBit (64 * q + b)) ∧
    s.bvBit 52 = (s.bvWord 0).getLsbD 52 ∧ s.bvBit 200 = (s.bvWord 3).getLsbD 8

/-- The number of bits one `BF.OBS` sets in an empty filter is the number of distinct slices, between 1 and k. The spec
marks this as derived from R90 to R93. -/
def Obligations.ObserveSetsDistinctSlices : Prop :=
  ∀ (h : Word) (p : Params) (t : State), exec (.bfObs h) (State.resetOf p) = .next t →
    (List.range p.bfM).countP t.bvBit = (subHashes p h).dedup.length ∧
    1 ≤ (subHashes p h).dedup.length ∧ (subHashes p h).dedup.length ≤ p.bfK

/-- R97: no false negative, whatever commands follow without reset; no command clears a bit, and once `BF.CHK h` has answered
1 it answers 1 until reset; `BF.CHK` and `BF.RDW` repeated answer the same; `BF.OBS` and `BF.CHK` neither read nor write `BK`. -/
def Obligations.BloomFilterProperties : Prop :=
  (∀ (h : Word) (s t u : State) (n : Nat), exec (.bfObs h) s = .next t → noReset (t.edges.take n) = true →
    after n t = some u → exec (.bfChk h) u = .next { u with rsp := u.rsp ++ [{ status := .ok, data := 1#64 }] }) ∧
  (∀ (w : CmdWord) (s t : State) (i : Nat), runWord w s = .next t → s.bvBit i = true → t.bvBit i = true) ∧
  (∀ (h : Word) (s u : State) (n : Nat),
    exec (.bfChk h) s = .next { s with rsp := s.rsp ++ [{ status := .ok, data := 1#64 }] } →
    noReset (s.edges.take n) = true → after n s = some u →
    exec (.bfChk h) u = .next { u with rsp := u.rsp ++ [{ status := .ok, data := 1#64 }] }) ∧
  (∀ (a : Word) (s t u : State) (r : Response) (ws : List CmdWord), ∀ i ∈ [Instr.bfChk a, Instr.bfRdw a],
    exec i s = .next t → t.rsp = s.rsp ++ [r] → (∀ w ∈ ws, ∀ h, decode w ≠ .ok (.bfObs h)) → runWords ws t = .next u →
    ∃ u', exec i u = .next u' ∧ u'.rsp = u.rsp ++ [r]) ∧
  (∀ (h : Word) (s t : State) (bk : Cells 7), ∀ i ∈ [Instr.bfObs h, Instr.bfChk h], exec i s = .next t →
    t.bk = s.bk ∧ exec i { s with bk := bk } = .next { t with bk := bk })

/-! ## LLE -/

/-- R100: the bucket index is the low P bits of h, 0 when P = 0, and always valid. -/
def Obligations.BucketIndexIsLowBits : Prop :=
  (∀ (p : Params) (h : Word), bucketIndex p h = h.toNat % p.llB ∧ bucketIndex p h < p.llB ∧
    (p.llP.val = 0 → bucketIndex p h = 0)) ∧
  (∀ p : Params, p.llP = 4 → bucketIndex p 0xDEADBEEF00000073#64 = 3)

/-- R101: the rank is the length of the run of 1-bits that starts at bit P of h; it is in 0 .. 64 - P and reaches 64 - P
exactly when `h[63:P]` is all ones; the rule's examples. -/
def Obligations.RankIsTrailingOnes : Prop :=
  (∀ (p : Params) (h : Word),
    (∀ i < rank p h, h.getLsbD (p.llP.val + i) = true) ∧
    (rank p h < 64 - p.llP.val → h.getLsbD (p.llP.val + rank p h) = false) ∧
    rank p h = cto (h >>> p.llP.val) ∧ rank p h ≤ 64 - p.llP.val ∧
    (rank p h = 64 - p.llP.val ↔ ∀ i, p.llP.val ≤ i → i < 64 → h.getLsbD i = true)) ∧
  (∀ p : Params, p.llP = 4 → rank p 0xDEADBEEF00000073#64 = 3 ∧ rank p 0xFFFFFFFFFFFFFFFA#64 = 60 ∧ rank p 0#64 = 0)

/-- R102: `LL.OBS h` raises the selected counter to the rank where it is lower, and leaves every other counter and
everything else. -/
def Obligations.LlObsRaisesOneCounter : Prop :=
  (∀ h : Word, encode (.llObs h) = cmdWordOf 0x20#8 h) ∧
  (∀ (h : Word) (s : State), s.Inv → ∃ bk,
    exec (.llObs h) s = .next { s with bk := bk, rsp := s.rsp ++ [{ status := .ok, data := 0#64 }] } ∧
    (∀ j, (({ s with bk := bk } : State).bkCounter j).toNat =
      if j = h.toNat % s.params.llB then max (s.bkCounter j).toNat (cto (h >>> s.params.llP.val))
      else (s.bkCounter j).toNat) ∧
    (cto (h >>> s.params.llP.val) ≤ (s.bkCounter (h.toNat % s.params.llB)).toNat → bk = s.bk) ∧
    ∀ j, (({ s with bk := bk } : State).bkCounter j).toNat ≤ 64 - s.params.llP.val)

/-- R103: `LL.RDB j` answers counter j zero-extended, or `BadIndex` where j >= B; the result is at most 64 - P. -/
def Obligations.LlRdbReadsCounter : Prop :=
  (∀ j : Word, encode (.llRdb j) = cmdWordOf 0x24#8 j) ∧
  (∀ (j : Word) (s : State), j.toNat < s.params.llB → ∃ v,
    exec (.llRdb j) s = .next { s with rsp := s.rsp ++ [{ status := .ok, data := v }] } ∧
    v.toNat = (s.bkCounter j.toNat).toNat ∧ (s.Inv → v.toNat ≤ 64 - s.params.llP.val)) ∧
  (∀ (j : Word) (s : State), s.params.llB ≤ j.toNat →
    exec (.llRdb j) s = .next { s with idx := true, rsp := s.rsp ++ [{ status := .badIndex, data := 0#64 }] })

/-- R104(b): after any sequence of `LL.OBS` commands since reset, each counter is the maximum of the ranks of the
observed h with that index, 0 if there is none. The spec marks this as derived from R102. -/
def Obligations.CountersAreMaximalRanks : Prop :=
  ∀ (p : Params) (hs : List Word) (t : State),
    runWords (hs.map fun h => encode (.llObs h)) (State.resetOf p) = .next t →
    ∀ j, (t.bkCounter j).toNat = ((hs.filter fun h => bucketIndex p h == j).map (rank p)).foldr max 0

/-- R111: `LL.EST` answers `sat64(round(ALPHA * B * 2^(S/B)))` of the real number, and writes nothing but its response;
the rule's results on the empty state and its example. -/
def Obligations.LlEstIsRoundedGeometricMean : Prop :=
  encode .llEst = cmdWordOf 0x21#8 0#64 ∧
  (∀ s : State, exec .llEst s = .next { s with rsp := s.rsp ++ [{ status := .ok, data := BitVec.ofNat 64 (min
    ⌊(s.params.alpha : ℝ) * s.params.llB * (2 : ℝ) ^ ((s.buckets.sum : ℝ) / s.params.llB) + 1 / 2⌋₊ (2 ^ 64 - 1)) }] }) ∧
  (∀ w : BloomWidth, estimate { width := w, llP := 0 } [0] = 0 ∧
    estimate { width := w, llP := 1 } (List.replicate 2 0) = 1 ∧
    estimate { width := w, llP := 4 } (List.replicate 16 0) = 11 ∧
    estimate { width := w, llP := 5 } (List.replicate 32 0) = 22 ∧
    estimate { width := w, llP := 6 } (List.replicate 64 0) = 45 ∧
    estimate { width := w, llP := 10 } (List.replicate 1024 0) = 738 ∧
    estimate { width := w, llP := 4 } (List.replicate 16 5) = 345)

/-- R112: `LL.SEST` answers `sat64(round(0.79402 * cutoff * 2^(S_c/cutoff)))` of the real number, S_c the sum of the cutoff
smallest values and cutoff = floor(9*B/10); `OK, 0` where B = 1, which R112(b) says and log entry 9 holds against the
parameter `SEST_EMPTY_PREFIX` that U1 would allow. A set of `cutoff` buckets with the smallest values is
named by any list of the counters in ascending order. Last, the rule's results on the empty state and its example. -/
def Obligations.LlSestIsRoundedTrimmedMean : Prop :=
  encode .llSest = cmdWordOf 0x22#8 0#64 ∧
  (∀ (s : State) (t : List Nat) (c : Nat), t.Perm s.buckets → t.Pairwise (· ≤ ·) → c = 9 * s.params.llB / 10 → c ≠ 0 →
    exec .llSest s = .next { s with rsp := s.rsp ++ [{ status := .ok, data := BitVec.ofNat 64 (min
      ⌊(79402 / 100000 : ℝ) * c * (2 : ℝ) ^ (((t.take c).sum : ℝ) / c) + 1 / 2⌋₊ (2 ^ 64 - 1)) }] }) ∧
  (∀ s : State, s.params.llB = 1 →
    exec .llSest s = .next { s with rsp := s.rsp ++ [{ status := .ok, data := 0#64 }] }) ∧
  (∀ p : Params, 9 * p.llB / 10 = 0 ↔ p.llB = 1) ∧
  (∀ w : BloomWidth, superEstimate { width := w, llP := 1 } (List.replicate 2 0) = 1 ∧
    superEstimate { width := w, llP := 4 } (List.replicate 16 0) = 11 ∧
    superEstimate { width := w, llP := 5 } (List.replicate 32 0) = 22 ∧
    superEstimate { width := w, llP := 6 } (List.replicate 64 0) = 45 ∧
    superEstimate { width := w, llP := 10 } (List.replicate 1024 0) = 731 ∧
    superEstimate { width := w, llP := 4 } [0, 0, 0, 3, 0, 0, 0, 0, 0, 0, 60, 0, 0, 0, 0, 4] = 13)

/-- R113: `LL.HEST` answers `sat64(round(x))`, x the real number of the rule's two regimes: -B*ln(emptyCount/B) when
raw < 2.5*B, exactly and strictly, and some bucket is empty; raw = 2*B*ALPHA*(B/Z) otherwise. Last, the empty state, the
rule's examples and its saturated case. -/
def Obligations.LlHestIsRoundedHarmonicMean : Prop :=
  encode .llHest = cmdWordOf 0x23#8 0#64 ∧
  (∀ (s : State) (z raw : ℝ), z = (s.buckets.map fun v => 1 / (2 : ℝ) ^ v).sum →
    raw = 2 * s.params.llB * (s.params.alpha : ℝ) * (s.params.llB / z) →
    (raw < 5 / 2 * s.params.llB → 1 ≤ s.buckets.count 0 →
      exec .llHest s = .next { s with rsp := s.rsp ++ [{ status := .ok, data := BitVec.ofNat 64 (min
        ⌊-(s.params.llB : ℝ) * Real.log ((s.buckets.count 0 : ℝ) / s.params.llB) + 1 / 2⌋₊ (2 ^ 64 - 1)) }] }) ∧
    (¬(raw < 5 / 2 * s.params.llB ∧ 1 ≤ s.buckets.count 0) →
      exec .llHest s = .next { s with rsp := s.rsp ++ [{ status := .ok, data := BitVec.ofNat 64 (min
        ⌊raw + 1 / 2⌋₊ (2 ^ 64 - 1)) }] })) ∧
  (∀ p : Params, exec .llHest (State.resetOf p) =
    .next { State.resetOf p with rsp := [{ status := .ok, data := 0#64 }] }) ∧
  (∀ w : BloomWidth,
    hyperEstimate { width := w, llP := 4 } [0, 0, 0, 3, 0, 0, 0, 0, 0, 0, 60, 0, 0, 0, 0, 4] = 3 ∧
    hyperEstimate { width := w, llP := 4 } (List.replicate 16 5) = 689 ∧
    sat64 (hyperEstimate { width := w, llP := 4 } (List.replicate 16 60)) = 0xFFFFFFFFFFFFFFFF#64)

/-- The estimates are functions of the multiset of counter values and of B alone (R114); the spec marks the permutation
law as derived. -/
def Obligations.EstimatesIgnoreBucketOrder : Prop :=
  ∀ (s s' : State), s.params.llP = s'.params.llP → s.buckets.Perm s'.buckets →
    ∀ i ∈ [Instr.llEst, Instr.llSest, Instr.llHest], ∃ v,
      exec i s = .next { s with rsp := s.rsp ++ [{ status := .ok, data := v }] } ∧
      exec i s' = .next { s' with rsp := s'.rsp ++ [{ status := .ok, data := v }] }

/-- `sat64` changes neither `LL.EST` nor `LL.SEST` in a state that meets the invariant (R116(a)(b)); the spec marks the
ranges as derived. -/
def Obligations.PlainEstimatesNeverSaturate : Prop :=
  ∀ s : State, s.Inv → estimate s.params s.buckets ≤ 2 ^ 64 - 1 ∧ superEstimate s.params s.buckets ≤ 2 ^ 64 - 1

/-- Without an empty bucket the raw branch is taken, and for B >= 8 raw >= 2.5*B there (R113(b)); the spec marks the bound
as derived. -/
def Obligations.NoEmptyBucketTakesRawBranch : Prop :=
  ∀ s : State, s.buckets.count 0 = 0 →
    hyperEstimate s.params s.buckets = roundHalfUp (rawEstimate s.params s.buckets) ∧
    (8 ≤ s.params.llB → 5 / 2 * (s.params.llB : Rat) ≤ rawEstimate s.params s.buckets)

/-! ## BRA -/

/-- R83: the three functions by their definitions, and goest's worked values. -/
def Obligations.BitRunFunctions : Prop :=
  (∀ x : Word, popcnt x = (Finset.univ.filter fun i : Fin 64 => x.getLsbD i.val = true).card) ∧
  (∀ x : Word, cto x ≤ 64 ∧ (∀ i < cto x, x.getLsbD i = true) ∧ ∀ n ≤ 64, (∀ i < n, x.getLsbD i = true) → n ≤ cto x) ∧
  (∀ x : Word, ctz x ≤ 64 ∧ (∀ i < ctz x, x.getLsbD i = false) ∧ ∀ n ≤ 64, (∀ i < n, x.getLsbD i = false) → n ≤ ctz x) ∧
  cto 23#64 = 3 ∧ cto 255#64 = 8 ∧ cto 0#64 = 0 ∧ cto 897#64 = 1 ∧ ctz 0#64 = 64

/-- The laws R83 derives from the definitions. -/
def Obligations.BitRunLaws : Prop :=
  ∀ x : Word, cto x = ctz (~~~x) ∧ cto x ≤ popcnt x ∧ popcnt x + popcnt (~~~x) = 64 ∧
    ((cto x ≠ 0 ∧ ctz x = 0) ∨ (cto x = 0 ∧ ctz x ≠ 0))

/-- R80, R81, R82: the three commands answer their function of x, zero-extended, and write nothing else. -/
def Obligations.BitRunCommands : Prop :=
  ∀ (x : Word) (s : State),
    encode (.brPopcnt x) = cmdWordOf 0x30#8 x ∧ encode (.brCto x) = cmdWordOf 0x31#8 x ∧
    encode (.brCtz x) = cmdWordOf 0x32#8 x ∧
    (∃ v : Word, v.toNat = popcnt x ∧
      exec (.brPopcnt x) s = .next { s with rsp := s.rsp ++ [{ status := .ok, data := v }] }) ∧
    (∃ v : Word, v.toNat = cto x ∧
      exec (.brCto x) s = .next { s with rsp := s.rsp ++ [{ status := .ok, data := v }] }) ∧
    (∃ v : Word, v.toNat = ctz x ∧
      exec (.brCtz x) s = .next { s with rsp := s.rsp ++ [{ status := .ok, data := v }] })

/-! ## Whole-machine laws -/

/-- R45: no read has a side effect: the ten commands that only read leave `BV`, `BK` and the rest, but for the response and
for `IDX` where they fail. -/
def Obligations.ReadsHaveNoSideEffects : Prop :=
  ∀ (i : Instr) (s t : State), (∀ h, i ≠ .bfObs h) → (∀ h, i ≠ .llObs h) → exec i s = .next t →
    ∃ r, t.rsp = s.rsp ++ [r] ∧ (r.status = .ok → t = { s with rsp := s.rsp ++ [r] }) ∧
      (r.status ≠ .ok → t = { s with idx := true, rsp := s.rsp ++ [r] })

/-- What one unit does is blind to the other: with another `BK` the BFC commands, and with another `BV` the LLE commands,
do the same and answer the same (R97(d), R104(d)). -/
def Obligations.UnitsDoNotInterfere : Prop :=
  (∀ (a : Word) (s t : State) (bk : Cells 7), ∀ i ∈ [Instr.bfObs a, .bfChk a, .bfRdw a], exec i s = .next t →
    t.bk = s.bk ∧ exec i { s with bk := bk } = .next { t with bk := bk }) ∧
  (∀ (a : Word) (s t : State) (bv : Cells 64), ∀ i ∈ [Instr.llObs a, .llEst, .llSest, .llHest, .llRdb a],
    exec i s = .next t → t.bv = s.bv ∧ exec i { s with bv := bv } = .next { t with bv := bv })

/-- R53's law, which the spec marks as derived: the arrays after a sequence of Observes depend only on the set of
commands, not on their order or multiplicity. -/
def Obligations.ObservesCommute : Prop :=
  ∀ (s t t' : State) (l l' : List Instr), s.Inv → (∀ i ∈ l, ∃ h, i = .bfObs h ∨ i = .llObs h) → (∀ i, i ∈ l ↔ i ∈ l') →
    runWords (l.map encode) s = .next t → runWords (l'.map encode) s = .next t' → t.bv = t'.bv ∧ t.bk = t'.bk

/-- R168's law, which the spec marks as derived: merging two instances of one configuration is replaying all Observes into
one. Every hash is observed by both units here, as `OBSERVE.ITEM` does (R68). -/
def Obligations.MergeEqualsReplay : Prop :=
  ∀ (p : Params) (l l' : List Word) (s s' t : State),
    runWords ((l.flatMap observeHash).map encode) (State.resetOf p) = .next s →
    runWords ((l'.flatMap observeHash).map encode) (State.resetOf p) = .next s' →
    runWords (((l ++ l').flatMap observeHash).map encode) (State.resetOf p) = .next t →
    mergeBv s s' = t.bv ∧ mergeBk s s' = t.bk

/-- R96's function lies in the open interval (0, 1) and is strictly increasing in n for a fixed configuration. -/
def Obligations.FalsePositiveProbabilityIncreases : Prop :=
  ∀ p : Params, (∀ n, 0 < falsePositiveProbability p n ∧ falsePositiveProbability p n < 1) ∧
    StrictMono (falsePositiveProbability p)
end

