-- ==== Sys2Proof/Laws/Cells.lean ====
section
/-! SUPPORT. The laws of an array: read after write, the canonical form, and that equal reads make equal arrays. -/

namespace Sys2Proof.Machine

variable {w : Nat}

@[simp] theorem Cells.read_nil (i : Nat) : Cells.read ([] : Cells w) i = 0#w := rfl

theorem Cells.read_cons (a : Nat) (x : BitVec w) (rest : Cells w) (i : Nat) :
    Cells.read ((a, x) :: rest) i = if i = a then x else Cells.read rest i := rfl

theorem Cells.read_put (i : Nat) (v : BitVec w) (rest : Cells w) (j : Nat) :
    Cells.read (Cells.put i v rest) j = if v = 0#w then Cells.read rest j else if j = i then v else Cells.read rest j := by
  unfold Cells.put
  split <;> simp [Cells.read_cons, *]

/-- A write leaves every other element alone. -/
theorem Cells.read_write_ne {i j : Nat} (h : j ≠ i) (v : BitVec w) (c : Cells w) :
    Cells.read (Cells.write c i v) j = Cells.read c j := by
  induction c with
  | nil => simp [Cells.write, Cells.read_put, h]
  | cons e rest ih =>
    obtain ⟨a, x⟩ := e
    simp only [Cells.write]
    split
    · simp [Cells.read_put, h]
    · split
      · rename_i ha
        subst ha
        simp [Cells.read_put, Cells.read_cons, h]
      · simp [Cells.read_cons, ih]

/-- Nothing is listed below the first index of a canonical array. -/
theorem Cells.read_eq_zero_of_lt {bound lo i : Nat} (c : Cells w) (h : Cells.wfFrom bound lo c = true) (hi : i < lo) :
    Cells.read c i = 0#w := by
  induction c generalizing lo with
  | nil => rfl
  | cons e rest ih =>
    obtain ⟨a, x⟩ := e
    simp only [Cells.wfFrom, Bool.and_eq_true, decide_eq_true_eq] at h
    rw [Cells.read_cons, if_neg (by omega)]
    exact ih h.2 (by omega)

/-- Nothing is listed from the bound on. -/
theorem Cells.read_eq_zero_of_ge {bound lo i : Nat} (c : Cells w) (h : Cells.wfFrom bound lo c = true) (hi : bound ≤ i) :
    Cells.read c i = 0#w := by
  induction c generalizing lo with
  | nil => rfl
  | cons e rest ih =>
    obtain ⟨a, x⟩ := e
    simp only [Cells.wfFrom, Bool.and_eq_true, decide_eq_true_eq] at h
    rw [Cells.read_cons, if_neg (by omega)]
    exact ih h.2

/-- A write is read back, in a canonical array. -/
theorem Cells.read_write_self {bound lo : Nat} (i : Nat) (v : BitVec w) (c : Cells w)
    (h : Cells.wfFrom bound lo c = true) : Cells.read (Cells.write c i v) i = v := by
  induction c generalizing lo with
  | nil => simp only [Cells.write, Cells.read_put, Cells.read_nil]; split <;> simp_all
  | cons e rest ih =>
    obtain ⟨a, x⟩ := e
    simp only [Cells.wfFrom, Bool.and_eq_true, decide_eq_true_eq] at h
    simp only [Cells.write]
    split
    · rename_i hi
      rw [Cells.read_put, Cells.read_cons, if_neg (show ¬i = a by omega), Cells.read_eq_zero_of_lt rest h.2 (by omega)]
      split <;> simp_all
    · split
      · rename_i hi
        rw [Cells.read_put, Cells.read_eq_zero_of_lt rest h.2 (by omega)]
        split <;> simp_all
      · rename_i hi
        rw [Cells.read_cons, if_neg hi]
        exact ih h.2

/-- A write of a non-zero element is read back, in any array. -/
theorem Cells.read_write_self_of_ne_zero (i : Nat) {v : BitVec w} (hv : v ≠ 0#w) (c : Cells w) :
    Cells.read (Cells.write c i v) i = v := by
  induction c with
  | nil => simp [Cells.write, Cells.read_put, hv]
  | cons e rest ih =>
    obtain ⟨a, x⟩ := e
    simp only [Cells.write]
    split
    · simp [Cells.read_put, hv]
    · split
      · simp [Cells.read_put, hv]
      · rename_i hi
        rw [Cells.read_cons, if_neg hi]
        exact ih

theorem Cells.wfFrom_mono {bound lo lo' : Nat} (c : Cells w) (h : Cells.wfFrom bound lo c = true) (hl : lo' ≤ lo) :
    Cells.wfFrom bound lo' c = true := by
  cases c with
  | nil => rfl
  | cons e rest =>
    obtain ⟨a, x⟩ := e
    simp only [Cells.wfFrom, Bool.and_eq_true, decide_eq_true_eq] at h ⊢
    exact ⟨⟨⟨by omega, h.1.1.2⟩, h.1.2⟩, h.2⟩

theorem Cells.wfFrom_put {bound lo i : Nat} (v : BitVec w) (c : Cells w) (hl : lo ≤ i) (hb : i < bound)
    (h : Cells.wfFrom bound (i + 1) c = true) : Cells.wfFrom bound lo (Cells.put i v c) = true := by
  unfold Cells.put
  split
  · exact Cells.wfFrom_mono c h (by omega)
  · simp_all [Cells.wfFrom]

/-- A write keeps the canonical form. -/
theorem Cells.wfFrom_write {bound lo i : Nat} (v : BitVec w) (c : Cells w) (hl : lo ≤ i) (hb : i < bound)
    (h : Cells.wfFrom bound lo c = true) : Cells.wfFrom bound lo (Cells.write c i v) = true := by
  induction c generalizing lo with
  | nil => exact Cells.wfFrom_put v [] hl hb rfl
  | cons e rest ih =>
    obtain ⟨a, x⟩ := e
    simp only [Cells.wfFrom, Bool.and_eq_true, decide_eq_true_eq] at h
    simp only [Cells.write]
    split
    · refine Cells.wfFrom_put v _ hl hb ?_
      simp only [Cells.wfFrom, Bool.and_eq_true, decide_eq_true_eq]
      exact ⟨⟨⟨by omega, h.1.1.2⟩, h.1.2⟩, h.2⟩
    · split
      · rename_i hi
        exact Cells.wfFrom_put v _ hl hb (hi ▸ h.2)
      · simp only [Cells.wfFrom, Bool.and_eq_true, decide_eq_true_eq]
        exact ⟨h.1, ih (by omega) h.2⟩

theorem Cells.wf_write {bound i : Nat} (v : BitVec w) (c : Cells w) (hb : i < bound) (h : Cells.wf bound c = true) :
    Cells.wf bound (Cells.write c i v) = true := Cells.wfFrom_write v c (Nat.zero_le i) hb h

@[simp] theorem Cells.wf_nil (bound : Nat) : Cells.wf bound ([] : Cells w) = true := rfl

/-- Two canonical arrays that read alike are the same data. -/
theorem Cells.eq_of_read_eq {bound lo : Nat} (c d : Cells w) (hc : Cells.wfFrom bound lo c = true)
    (hd : Cells.wfFrom bound lo d = true) (h : ∀ i, Cells.read c i = Cells.read d i) : c = d := by
  induction c generalizing lo d with
  | nil =>
    cases d with
    | nil => rfl
    | cons e rest =>
      obtain ⟨a, x⟩ := e
      simp only [Cells.wfFrom, Bool.and_eq_true, decide_eq_true_eq] at hd
      exact absurd (by simpa [Cells.read_cons] using (h a).symm) hd.1.2
  | cons e rest ih =>
    obtain ⟨a, x⟩ := e
    have hc' := hc
    simp only [Cells.wfFrom, Bool.and_eq_true, decide_eq_true_eq] at hc'
    cases d with
    | nil => exact absurd (by simpa [Cells.read_cons] using h a) hc'.1.2
    | cons f rest' =>
      obtain ⟨b, y⟩ := f
      have hd' := hd
      simp only [Cells.wfFrom, Bool.and_eq_true, decide_eq_true_eq] at hd'
      have hab : a = b := by
        rcases Nat.lt_trichotomy a b with hlt | heq | hlt
        · have := h a
          rw [Cells.read_cons, if_pos rfl, Cells.read_cons, if_neg (by omega),
            Cells.read_eq_zero_of_lt rest' hd'.2 (by omega)] at this
          exact absurd this hc'.1.2
        · exact heq
        · have := h b
          rw [Cells.read_cons, if_neg (by omega), Cells.read_eq_zero_of_lt rest hc'.2 (by omega),
            Cells.read_cons, if_pos rfl] at this
          exact absurd this.symm hd'.1.2
      subst hab
      have hxy : x = y := by simpa [Cells.read_cons] using h a
      subst hxy
      congr 1
      refine ih rest' hc'.2 hd'.2 fun i => ?_
      rcases Nat.lt_or_ge i (a + 1) with hi | hi
      · rw [Cells.read_eq_zero_of_lt rest hc'.2 hi, Cells.read_eq_zero_of_lt rest' hd'.2 hi]
      · have := h i
        rwa [Cells.read_cons, if_neg (by omega), Cells.read_cons, if_neg (by omega)] at this

end Sys2Proof.Machine
end

