-- ==== Sys2Proof/Laws/Decode.lean ====
section
/-! SUPPORT. The laws of the opcode map and of the fields of a command word. -/

namespace Sys2Proof

/-- A bit of `{op, data}` (R60). -/
theorem getLsbD_cmdWordOf (op : OpField) (data : Word) (i : Nat) :
    (cmdWordOf op data).getLsbD i = if i < 64 then data.getLsbD i else op.getLsbD (i - 64) :=
  BitVec.getLsbD_append

@[simp] theorem cmdOpField_cmdWordOf (op : OpField) (data : Word) : cmdOpField (cmdWordOf op data) = op := by
  refine BitVec.eq_of_getLsbD_eq fun i hi => ?_
  simp [cmdOpField, getLsbD_cmdWordOf, hi]

@[simp] theorem cmdDataField_cmdWordOf (op : OpField) (data : Word) : cmdDataField (cmdWordOf op data) = data := by
  refine BitVec.eq_of_getLsbD_eq fun i hi => ?_
  simp [cmdDataField, getLsbD_cmdWordOf, hi]

/-- A command word is its two fields (R60). -/
@[simp] theorem cmdWordOf_fields (w : CmdWord) : cmdWordOf (cmdOpField w) (cmdDataField w) = w := by
  refine BitVec.eq_of_getLsbD_eq fun i hi => ?_
  rw [getLsbD_cmdWordOf, cmdOpField, cmdDataField]
  split
  · simp [*]
  · rw [BitVec.getLsbD_extractLsb', show 64 + (i - 64) = i by omega]
    simp [show i - 64 < 8 by omega]

theorem Opcode.mem_all (o : Opcode) : o ∈ Opcode.all := by cases o <;> decide

/-- Each row's code selects the row: no two rows of the opcode map overlap (R64). -/
@[simp] theorem Opcode.ofCode?_code (o : Opcode) : Opcode.ofCode? o.code = some o := by cases o <;> rfl

/-- A code that selects a row is that row's. -/
theorem Opcode.code_of_ofCode? {c : OpField} {o : Opcode} (h : Opcode.ofCode? c = some o) : o.code = c := by
  simpa using List.find?_some h

/-- A command is its row applied to its `data` field. -/
@[simp] theorem Opcode.command_opcode_data (i : Instr) : i.opcode.command i.data = i := by cases i <;> rfl

theorem decode_of_ofCode? {w : CmdWord} {o : Opcode} (h : Opcode.ofCode? (cmdOpField w) = some o) :
    decode w = .ok (o.command (cmdDataField w)) := by rw [decode, h]

theorem decode_of_reserved {w : CmdWord} (h : Opcode.ofCode? (cmdOpField w) = none) :
    decode w = .error (.reservedOpcode (cmdOpField w)) := by rw [decode, h]

end Sys2Proof
end

