-- ==== Sys2Proof/Laws/Parameters.lean ====
section
/-! SUPPORT. What the derived constants can be, and which numbers are legal parameters. -/

namespace Sys2Proof

theorem Params.llB_pos (p : Params) : 0 < p.llB := Nat.two_pow_pos _

theorem Params.llB_le (p : Params) : p.llB ≤ 2 ^ 63 :=
  Nat.pow_le_pow_right (by decide) (by have := p.llP.isLt; omega)

theorem Params.two_pow_bfW (p : Params) : 2 ^ p.bfW = p.bfM := by
  unfold Params.bfW Params.bfM
  cases p.width <;> rfl

theorem Params.bfM_eq_words (p : Params) : p.bfM = 64 * p.bvWords := by
  unfold Params.bvWords Params.bfM
  cases p.width <;> rfl

/-- R8's constant is positive, and at most 0.7213. -/
theorem alpha_bounds (b : Nat) : 0 < alpha b ∧ alpha b ≤ 7213 / 10000 := by
  unfold alpha
  split
  · norm_num
  · split
    · norm_num
    · split
      · norm_num
      · have hb : (0 : Rat) ≤ 1079 / 1000 / b := by positivity
        refine ⟨by positivity, ?_⟩
        rw [div_le_iff₀ (by linarith)]
        linarith

end Sys2Proof

namespace Sys2Proof.Machine

/-- The exponents found are those of the powers of two 2^0 .. 2^63 (R7). -/
theorem log2Of?_eq_some {n : Nat} {p : Fin 64} : log2Of? n = some p ↔ n = 2 ^ p.val := by
  constructor
  · intro h
    have := List.find?_some (p := fun q : Fin 64 => 2 ^ q.val == n) h
    exact (beq_iff_eq.1 this).symm
  · rintro rfl
    cases h : log2Of? (2 ^ p.val) with
    | none =>
      rw [log2Of?, List.find?_eq_none] at h
      exact absurd (by simp) (h p (List.mem_finRange _))
    | some q =>
      have := List.find?_some (p := fun q : Fin 64 => 2 ^ q.val == 2 ^ p.val) h
      have hq : q.val = p.val := by simpa using this
      rw [Fin.ext hq]

theorem widthOf?_eq_some {n : Nat} {w : BloomWidth} :
    widthOf? n = some w ↔ (n = 256 ∧ w = .w256) ∨ (n = 65536 ∧ w = .w65536) := by
  unfold widthOf?
  split
  · subst_vars; cases w <;> simp
  · split
    · subst_vars; cases w <;> simp
    · simp [*]

end Sys2Proof.Machine
end

