-- ==== Sys2Proof/Laws/Operands.lean ====
section
/-! SUPPORT. What the operand readings can be: sub-hashes are valid bit indices, a bucket index is a valid index, a rank is
at most 64 - P, and the two runs of R83 are the longest runs. -/

namespace Sys2Proof.Machine

/-! ## Runs -/

/-- The length of the leading run of a property below `n`: it holds below the length, and fails at it. -/
theorem takeWhile_range_length (f : Nat → Bool) (n : Nat) :
    ((List.range n).takeWhile f).length ≤ n ∧ (∀ i < ((List.range n).takeWhile f).length, f i = true) ∧
      (((List.range n).takeWhile f).length < n → f ((List.range n).takeWhile f).length = false) := by
  induction n with
  | zero => simp
  | succ n ih =>
    obtain ⟨h1, h2, h3⟩ := ih
    rw [List.range_succ, List.takeWhile_append]
    split
    · rename_i heq
      rw [List.length_range] at heq
      cases hf : f n with
      | true =>
        simp only [List.takeWhile_cons, hf, List.takeWhile_nil, if_true, List.length_append, List.length_range,
          List.length_singleton]
        refine ⟨by omega, fun i hi => ?_, by omega⟩
        rcases Nat.lt_succ_iff_lt_or_eq.1 hi with hlt | rfl
        · exact h2 i (by rw [heq]; exact hlt)
        · exact hf
      | false =>
        simp only [List.takeWhile_cons, hf, List.length_append, List.length_range]
        refine ⟨by simp, fun i hi => h2 i (by rw [heq]; simpa using hi), fun _ => by simpa using hf⟩
    · rename_i hne
      rw [List.length_range] at hne
      exact ⟨by omega, h2, fun _ => h3 (by omega)⟩

theorem cto_le (x : Word) : cto x ≤ 64 := (takeWhile_range_length _ 64).1

theorem cto_run {x : Word} {i : Nat} (h : i < cto x) : x.getLsbD i = true := (takeWhile_range_length _ 64).2.1 i h

theorem cto_end {x : Word} (h : cto x < 64) : x.getLsbD (cto x) = false := (takeWhile_range_length _ 64).2.2 h

theorem ctz_le (x : Word) : ctz x ≤ 64 := (takeWhile_range_length _ 64).1

theorem ctz_run {x : Word} {i : Nat} (h : i < ctz x) : x.getLsbD i = false := by
  have := (takeWhile_range_length (fun i => !x.getLsbD i) 64).2.1 i h
  rwa [Bool.not_eq_true'] at this

theorem ctz_end {x : Word} (h : ctz x < 64) : x.getLsbD (ctz x) = true := by
  have := (takeWhile_range_length (fun i => !x.getLsbD i) 64).2.2 h
  rwa [Bool.not_eq_false'] at this

theorem popcnt_le (x : Word) : popcnt x ≤ 64 := by
  simpa [popcnt] using List.countP_le_length (p := fun i => x.getLsbD i) (l := List.range 64)

/-! ## Sub-hashes -/

theorem subHash_lt (w : Nat) (h : Word) (j : Nat) : subHash w h j < 2 ^ w := (h.extractLsb' _ w).isLt

/-- Each `s_j` is a valid bit index (R92). -/
theorem subHashes_lt {p : Params} {h : Word} {i : Nat} (hi : i ∈ subHashes p h) : i < p.bfM := by
  simp only [subHashes, List.mem_map] at hi
  obtain ⟨j, -, rfl⟩ := hi
  rw [← Params.two_pow_bfW]
  exact subHash_lt _ _ _

theorem subHashes_length (p : Params) (h : Word) : (subHashes p h).length = p.bfK := by simp [subHashes]

/-! ## Bucket index and rank -/

theorem bucketIndex_eq (p : Params) (h : Word) : bucketIndex p h = h.toNat % 2 ^ p.llP.val := by
  have hp := p.llP.isLt
  have h1 : (2 : Nat) ^ p.llP.val < 2 ^ 64 := Nat.pow_lt_pow_right (by decide) hp
  rw [bucketIndex, BitVec.toNat_and, BitVec.toNat_ofNat, Nat.mod_eq_of_lt (by unfold Params.llB; omega), Params.llB,
    Nat.and_two_pow_sub_one_eq_mod]

/-- `idx` is always a valid bucket index (R100). -/
theorem bucketIndex_lt (p : Params) (h : Word) : bucketIndex p h < p.llB := by
  rw [bucketIndex_eq]
  exact Nat.mod_lt _ (Nat.two_pow_pos _)

/-- The rank is in 0 .. 64 - P (R101). -/
theorem rank_le (p : Params) (h : Word) : rank p h ≤ 64 - p.llP.val := by
  unfold rank
  by_contra hlt
  have hc := cto_le (h >>> p.llP.val)
  have := cto_run (x := h >>> p.llP.val) (i := 64 - p.llP.val) (by omega)
  rw [BitVec.getLsbD_ushiftRight, BitVec.getLsbD_of_ge _ _ (by omega)] at this
  exact absurd this (by decide)

end Sys2Proof.Machine
end

