-- ==== Sys2Proof/Laws/State.lean ====
section
/-! SUPPORT. One lemma per field per update of the state, true by definition, so that no proof unfolds a record update. -/

namespace Sys2Proof.Machine

/-! ## s.setBvBit i -/

@[simp] theorem State.setBvBit_params (s : State) (i : Nat) : (s.setBvBit i).params = s.params := rfl
@[simp] theorem State.setBvBit_bv (s : State) (i : Nat) : (s.setBvBit i).bv = s.bv.write (i / 64) (s.bvWord (i / 64) ||| (1#64 <<< (i % 64))) := rfl
@[simp] theorem State.setBvBit_bk (s : State) (i : Nat) : (s.setBvBit i).bk = s.bk := rfl
@[simp] theorem State.setBvBit_ill (s : State) (i : Nat) : (s.setBvBit i).ill = s.ill := rfl
@[simp] theorem State.setBvBit_idx (s : State) (i : Nat) : (s.setBvBit i).idx = s.idx := rfl
@[simp] theorem State.setBvBit_rsp (s : State) (i : Nat) : (s.setBvBit i).rsp = s.rsp := rfl
@[simp] theorem State.setBvBit_edges (s : State) (i : Nat) : (s.setBvBit i).edges = s.edges := rfl

/-! ## s.raiseBk j k -/

@[simp] theorem State.raiseBk_params (s : State) (j k : Nat) : (s.raiseBk j k).params = s.params := rfl
@[simp] theorem State.raiseBk_bv (s : State) (j k : Nat) : (s.raiseBk j k).bv = s.bv := rfl
@[simp] theorem State.raiseBk_bk (s : State) (j k : Nat) : (s.raiseBk j k).bk = s.bk.write j (BitVec.ofNat 7 (max (s.bkCounter j).toNat k)) := rfl
@[simp] theorem State.raiseBk_ill (s : State) (j k : Nat) : (s.raiseBk j k).ill = s.ill := rfl
@[simp] theorem State.raiseBk_idx (s : State) (j k : Nat) : (s.raiseBk j k).idx = s.idx := rfl
@[simp] theorem State.raiseBk_rsp (s : State) (j k : Nat) : (s.raiseBk j k).rsp = s.rsp := rfl
@[simp] theorem State.raiseBk_edges (s : State) (j k : Nat) : (s.raiseBk j k).edges = s.edges := rfl

/-! ## s.respond st v -/

@[simp] theorem State.respond_params (s : State) (st : RspStatus) (v : Word) : (s.respond st v).params = s.params := rfl
@[simp] theorem State.respond_bv (s : State) (st : RspStatus) (v : Word) : (s.respond st v).bv = s.bv := rfl
@[simp] theorem State.respond_bk (s : State) (st : RspStatus) (v : Word) : (s.respond st v).bk = s.bk := rfl
@[simp] theorem State.respond_ill (s : State) (st : RspStatus) (v : Word) : (s.respond st v).ill = s.ill := rfl
@[simp] theorem State.respond_idx (s : State) (st : RspStatus) (v : Word) : (s.respond st v).idx = s.idx := rfl
@[simp] theorem State.respond_rsp (s : State) (st : RspStatus) (v : Word) : (s.respond st v).rsp = s.rsp ++ [{ status := st, data := v }] := rfl
@[simp] theorem State.respond_edges (s : State) (st : RspStatus) (v : Word) : (s.respond st v).edges = s.edges := rfl

/-! ## s.dropResponse -/

@[simp] theorem State.dropResponse_params (s : State) : (s.dropResponse).params = s.params := rfl
@[simp] theorem State.dropResponse_bv (s : State) : (s.dropResponse).bv = s.bv := rfl
@[simp] theorem State.dropResponse_bk (s : State) : (s.dropResponse).bk = s.bk := rfl
@[simp] theorem State.dropResponse_ill (s : State) : (s.dropResponse).ill = s.ill := rfl
@[simp] theorem State.dropResponse_idx (s : State) : (s.dropResponse).idx = s.idx := rfl
@[simp] theorem State.dropResponse_rsp (s : State) : (s.dropResponse).rsp = s.rsp.tail := rfl
@[simp] theorem State.dropResponse_edges (s : State) : (s.dropResponse).edges = s.edges := rfl

/-! ## s.resetEvent -/

@[simp] theorem State.resetEvent_params (s : State) : (s.resetEvent).params = s.params := rfl
@[simp] theorem State.resetEvent_bv (s : State) : (s.resetEvent).bv = [] := rfl
@[simp] theorem State.resetEvent_bk (s : State) : (s.resetEvent).bk = [] := rfl
@[simp] theorem State.resetEvent_ill (s : State) : (s.resetEvent).ill = false := rfl
@[simp] theorem State.resetEvent_idx (s : State) : (s.resetEvent).idx = false := rfl
@[simp] theorem State.resetEvent_rsp (s : State) : (s.resetEvent).rsp = [] := rfl
@[simp] theorem State.resetEvent_edges (s : State) : (s.resetEvent).edges = s.edges := rfl

/-! ## s.raise .illegalCommand -/

@[simp] theorem State.raise_illegalCommand_params (s : State) : (s.raise .illegalCommand).params = s.params := rfl
@[simp] theorem State.raise_illegalCommand_bv (s : State) : (s.raise .illegalCommand).bv = s.bv := rfl
@[simp] theorem State.raise_illegalCommand_bk (s : State) : (s.raise .illegalCommand).bk = s.bk := rfl
@[simp] theorem State.raise_illegalCommand_ill (s : State) : (s.raise .illegalCommand).ill = true := rfl
@[simp] theorem State.raise_illegalCommand_idx (s : State) : (s.raise .illegalCommand).idx = s.idx := rfl
@[simp] theorem State.raise_illegalCommand_rsp (s : State) : (s.raise .illegalCommand).rsp = s.rsp ++ [{ status := .illegalCmd, data := 0#64 }] := rfl
@[simp] theorem State.raise_illegalCommand_edges (s : State) : (s.raise .illegalCommand).edges = s.edges := rfl

/-! ## s.raise .badIndex -/

@[simp] theorem State.raise_badIndex_params (s : State) : (s.raise .badIndex).params = s.params := rfl
@[simp] theorem State.raise_badIndex_bv (s : State) : (s.raise .badIndex).bv = s.bv := rfl
@[simp] theorem State.raise_badIndex_bk (s : State) : (s.raise .badIndex).bk = s.bk := rfl
@[simp] theorem State.raise_badIndex_ill (s : State) : (s.raise .badIndex).ill = s.ill := rfl
@[simp] theorem State.raise_badIndex_idx (s : State) : (s.raise .badIndex).idx = true := rfl
@[simp] theorem State.raise_badIndex_rsp (s : State) : (s.raise .badIndex).rsp = s.rsp ++ [{ status := .badIndex, data := 0#64 }] := rfl
@[simp] theorem State.raise_badIndex_edges (s : State) : (s.raise .badIndex).edges = s.edges := rfl

/-! ## A state whose remaining edges are replaced -/

@[simp] theorem State.withEdges_params (s : State) (es : List Edge) : ({ s with edges := es } : State).params = s.params := rfl
@[simp] theorem State.withEdges_bv (s : State) (es : List Edge) : ({ s with edges := es } : State).bv = s.bv := rfl
@[simp] theorem State.withEdges_bk (s : State) (es : List Edge) : ({ s with edges := es } : State).bk = s.bk := rfl
@[simp] theorem State.withEdges_ill (s : State) (es : List Edge) : ({ s with edges := es } : State).ill = s.ill := rfl
@[simp] theorem State.withEdges_idx (s : State) (es : List Edge) : ({ s with edges := es } : State).idx = s.idx := rfl
@[simp] theorem State.withEdges_rsp (s : State) (es : List Edge) : ({ s with edges := es } : State).rsp = s.rsp := rfl

@[simp] theorem State.withEdges_edges (s : State) (es : List Edge) : ({ s with edges := es } : State).edges = es := rfl

/-! ## The reset state -/

@[simp] theorem State.resetOf_params (p : Params) : (State.resetOf p).params = p := rfl
@[simp] theorem State.resetOf_bv (p : Params) : (State.resetOf p).bv = [] := rfl
@[simp] theorem State.resetOf_bk (p : Params) : (State.resetOf p).bk = [] := rfl
@[simp] theorem State.resetOf_ill (p : Params) : (State.resetOf p).ill = false := rfl
@[simp] theorem State.resetOf_idx (p : Params) : (State.resetOf p).idx = false := rfl
@[simp] theorem State.resetOf_rsp (p : Params) : (State.resetOf p).rsp = [] := rfl
@[simp] theorem State.resetOf_edges (p : Params) : (State.resetOf p).edges = [] := rfl

/-! ## Views that an update leaves alone -/

@[simp] theorem State.respond_bvBit (s : State) (st : RspStatus) (v : Word) : (s.respond st v).bvBit = s.bvBit := rfl
@[simp] theorem State.respond_bkCounter (s : State) (st : RspStatus) (v : Word) :
    (s.respond st v).bkCounter = s.bkCounter := rfl
@[simp] theorem State.respond_buckets (s : State) (st : RspStatus) (v : Word) : (s.respond st v).buckets = s.buckets := rfl
@[simp] theorem State.raise_bvBit (s : State) (e : Exception) : (s.raise e).bvBit = s.bvBit := by cases e <;> rfl
@[simp] theorem State.raise_bkCounter (s : State) (e : Exception) : (s.raise e).bkCounter = s.bkCounter := by
  cases e <;> rfl
@[simp] theorem State.dropResponse_bvBit (s : State) : s.dropResponse.bvBit = s.bvBit := rfl
@[simp] theorem State.dropResponse_bkCounter (s : State) : s.dropResponse.bkCounter = s.bkCounter := rfl
@[simp] theorem State.setBvBit_bkCounter (s : State) (i : Nat) : (s.setBvBit i).bkCounter = s.bkCounter := rfl
@[simp] theorem State.raiseBk_bvBit (s : State) (j k : Nat) : (s.raiseBk j k).bvBit = s.bvBit := rfl
@[simp] theorem State.withEdges_bvBit (s : State) (es : List Edge) : ({ s with edges := es } : State).bvBit = s.bvBit := rfl
@[simp] theorem State.withEdges_bkCounter (s : State) (es : List Edge) :
    ({ s with edges := es } : State).bkCounter = s.bkCounter := rfl

/-! ## Setting several bits changes `bv` alone -/

@[simp] theorem State.setBvBits_nil (s : State) : s.setBvBits [] = s := rfl
@[simp] theorem State.setBvBits_cons (s : State) (i : Nat) (is : List Nat) :
    s.setBvBits (i :: is) = (s.setBvBit i).setBvBits is := rfl

theorem State.setBvBits_eq (is : List Nat) (s : State) : s.setBvBits is = { s with bv := (s.setBvBits is).bv } := by
  induction is generalizing s with
  | nil => rfl
  | cons i is ih => rw [setBvBits_cons, ih (s.setBvBit i)]; rfl

@[simp] theorem State.setBvBits_params (s : State) (is : List Nat) : (s.setBvBits is).params = s.params := by
  rw [setBvBits_eq]
@[simp] theorem State.setBvBits_bk (s : State) (is : List Nat) : (s.setBvBits is).bk = s.bk := by rw [setBvBits_eq]
@[simp] theorem State.setBvBits_ill (s : State) (is : List Nat) : (s.setBvBits is).ill = s.ill := by rw [setBvBits_eq]
@[simp] theorem State.setBvBits_idx (s : State) (is : List Nat) : (s.setBvBits is).idx = s.idx := by rw [setBvBits_eq]
@[simp] theorem State.setBvBits_rsp (s : State) (is : List Nat) : (s.setBvBits is).rsp = s.rsp := by rw [setBvBits_eq]
@[simp] theorem State.setBvBits_edges (s : State) (is : List Nat) : (s.setBvBits is).edges = s.edges := by
  rw [setBvBits_eq]
@[simp] theorem State.setBvBits_bkCounter (s : State) (is : List Nat) : (s.setBvBits is).bkCounter = s.bkCounter := by
  rw [setBvBits_eq]; rfl

/-! ## The end of an I-form command -/

@[simp] theorem State.respondIndexed_some (s : State) (v : Word) : s.respondIndexed (some v) = s.respond .ok v := rfl
@[simp] theorem State.respondIndexed_none (s : State) : s.respondIndexed none = s.raise .badIndex := rfl

end Sys2Proof.Machine
end

