-- ==== Sys2Proof/Laws/Ops.lean ====
section
/-! SUPPORT. What the shared operations do to the bits of `BV`, to the counters of `BK` and to the invariant. -/

namespace Sys2Proof.Machine

/-! ## Bits of BV -/

theorem or_bit_ne_zero (x : Word) (k : Nat) (hk : k < 64) : x ||| (1#64 <<< k) ≠ 0#64 := by
  intro h
  have := congrArg (fun y : Word => y.getLsbD k) h
  simp [hk] at this

/-- `BV[i] <- 1` sets bit i and leaves every other bit (R93). -/
theorem State.bvBit_setBvBit (s : State) (i j : Nat) : (s.setBvBit i).bvBit j = (s.bvBit j || decide (j = i)) := by
  have hi : i % 64 < 64 := Nat.mod_lt _ (by decide)
  have hj : j % 64 < 64 := Nat.mod_lt _ (by decide)
  unfold bvBit bvWord setBvBit
  by_cases hq : j / 64 = i / 64
  · rw [hq, Cells.read_write_self_of_ne_zero _ (or_bit_ne_zero _ _ hi)]
    have : j = i ↔ j % 64 = i % 64 := by omega
    simp only [BitVec.getLsbD_or, BitVec.getLsbD_shiftLeft, BitVec.getLsbD_one, bvWord, this, hj]
    congr 1
    simp only [decide_true, Bool.true_and]
    by_cases h : j % 64 = i % 64
    · simp [h]
    · simp only [h, decide_false, Bool.and_eq_false_imp, Bool.not_eq_true', decide_eq_false_iff_not, not_lt]
      intro hle
      simp; omega
  · rw [Cells.read_write_ne hq]
    have : j ≠ i := fun h => hq (h ▸ rfl)
    simp [this]

/-- Setting several bits sets exactly those (R93). -/
theorem State.bvBit_setBvBits (is : List Nat) (s : State) (j : Nat) :
    (s.setBvBits is).bvBit j = (s.bvBit j || decide (j ∈ is)) := by
  induction is generalizing s with
  | nil => simp
  | cons i is ih => rw [setBvBits_cons, ih, bvBit_setBvBit]; simp [Bool.or_assoc]

@[simp] theorem State.bvBit_resetOf (p : Params) (i : Nat) : (State.resetOf p).bvBit i = false := by
  simp [bvBit, bvWord]

@[simp] theorem State.bkCounter_resetOf (p : Params) (j : Nat) : (State.resetOf p).bkCounter j = 0#7 := by
  simp [bkCounter]

/-- Bit b of word q is the bit of index 64q + b (R41). -/
theorem State.getLsbD_bvWord (s : State) (q b : Nat) (hb : b < 64) : (s.bvWord q).getLsbD b = s.bvBit (64 * q + b) := by
  rw [bvBit, show (64 * q + b) / 64 = q by omega, show (64 * q + b) % 64 = b by omega]

/-! ## Counters of BK -/

/-- The counter is raised to the rank, and every other one is left (R102). -/
theorem State.bkCounter_raiseBk {s : State} {bound : Nat} (h : s.bk.wf bound = true) {j k : Nat} (hk : k ≤ 64) (i : Nat) :
    ((s.raiseBk j k).bkCounter i).toNat = if i = j then max (s.bkCounter j).toNat k else (s.bkCounter i).toNat := by
  unfold bkCounter raiseBk
  split
  · rename_i hij
    subst hij
    rw [Cells.read_write_self _ _ _ h, BitVec.toNat_ofNat, Nat.mod_eq_of_lt]
    · rfl
    · have := (s.bkCounter i).isLt
      omega
  · rename_i hij
    rw [Cells.read_write_ne hij]

/-! ## The canonical forms and the invariant -/

theorem State.setBvBit_wf {s : State} {bound i : Nat} (h : s.bv.wf bound = true) (hi : i / 64 < bound) :
    (s.setBvBit i).bv.wf bound = true := Cells.wf_write _ _ hi h

theorem State.setBvBits_wf {bound : Nat} (is : List Nat) {s : State} (h : s.bv.wf bound = true)
    (hi : ∀ i ∈ is, i / 64 < bound) : (s.setBvBits is).bv.wf bound = true := by
  induction is generalizing s with
  | nil => exact h
  | cons i is ih =>
    exact ih (setBvBit_wf h (hi i (List.mem_cons_self ..))) fun j hj => hi j (List.mem_cons_of_mem _ hj)

theorem State.raiseBk_wf {s : State} {bound j k : Nat} (h : s.bk.wf bound = true) (hj : j < bound) :
    (s.raiseBk j k).bk.wf bound = true := Cells.wf_write _ _ hj h

/-- The invariant speaks of the parameters, the arrays and the port alone. -/
theorem State.Inv.congr {s t : State} (h : s.Inv) (hp : t.params = s.params) (hv : t.bv = s.bv) (hk : t.bk = s.bk)
    (hr : ∀ r ∈ t.rsp, r.status ≠ .ok → r.data = 0#64) : t.Inv where
  bvForm := by rw [hp, hv]; exact h.bvForm
  bkForm := by rw [hp, hk]; exact h.bkForm
  bkRange := fun j => by rw [State.bkCounter, hp, hk]; exact h.bkRange j
  errorData := hr

theorem State.Inv.setBvBits {s : State} (h : s.Inv) {is : List Nat} (hi : ∀ i ∈ is, i < s.params.bfM) :
    (s.setBvBits is).Inv where
  bvForm := by
    rw [State.setBvBits_params]
    refine State.setBvBits_wf is h.bvForm fun i hm => ?_
    have := hi i hm
    rw [Params.bfM_eq_words] at this
    omega
  bkForm := by rw [State.setBvBits_params, State.setBvBits_bk]; exact h.bkForm
  bkRange := fun j => by rw [State.setBvBits_params, State.setBvBits_bkCounter]; exact h.bkRange j
  errorData := by rw [State.setBvBits_rsp]; exact h.errorData

theorem State.Inv.raiseBk {s : State} (h : s.Inv) {j k : Nat} (hj : j < s.params.llB) (hk : k ≤ 64 - s.params.llP.val) :
    (s.raiseBk j k).Inv where
  bvForm := h.bvForm
  bkForm := State.raiseBk_wf h.bkForm hj
  bkRange := fun i => by
    rw [State.bkCounter_raiseBk h.bkForm (by omega), State.raiseBk_params]
    split
    · exact max_le (h.bkRange j) hk
    · exact h.bkRange i
  errorData := h.errorData

theorem State.Inv.respond {s : State} (h : s.Inv) {st : RspStatus} {v : Word} (hv : st ≠ .ok → v = 0#64) :
    (s.respond st v).Inv :=
  h.congr rfl rfl rfl fun r hr => by
    rw [State.respond_rsp, List.mem_append, List.mem_singleton] at hr
    rcases hr with hr | rfl
    · exact h.errorData r hr
    · exact hv

theorem State.Inv.raise {s : State} (h : s.Inv) (e : Exception) : (s.raise e).Inv := by
  cases e <;>
  exact h.congr rfl rfl rfl fun r hr => by
    simp only [State.raise_illegalCommand_rsp, State.raise_badIndex_rsp, List.mem_append, List.mem_singleton] at hr
    rcases hr with hr | rfl
    · exact h.errorData r hr
    · exact fun _ => rfl

theorem State.Inv.dropResponse {s : State} (h : s.Inv) : s.dropResponse.Inv :=
  h.congr rfl rfl rfl fun r hr => h.errorData r (List.mem_of_mem_tail hr)

end Sys2Proof.Machine
end

