-- ==== Sys2Proof/Laws/Exec.lean ====
section
/-! SUPPORT. What one command, one accepted word and one edge can do, said once. -/

namespace Sys2Proof.Machine

/-- What a command may change: the response port always, by one response; `BV` and `BK` each by one command; `STATUS.IDX`
by a failing one. -/
structure Effect (i : Instr) (s t : State) : Prop where
  params : t.params = s.params
  edges : t.edges = s.edges
  ill : t.ill = s.ill
  rsp : ∃ r, t.rsp = s.rsp ++ [r] ∧ (r.status ≠ .ok → r.data = 0#64)
  bv : t.bv = s.bv ∨ ∃ h, i = .bfObs h ∧ t.bv = (s.setBvBits (subHashes s.params h)).bv
  bk : t.bk = s.bk ∨ ∃ h, i = .llObs h ∧ t.bk = (s.raiseBk (bucketIndex s.params h) (rank s.params h)).bk
  idx : t.idx = s.idx ∨ t.idx = true

theorem Effect.of_respond (i : Instr) (s : State) (v : Word) : Effect i s (s.respond .ok v) :=
  ⟨rfl, rfl, rfl, ⟨_, rfl, fun h => absurd rfl h⟩, .inl rfl, .inl rfl, .inl rfl⟩

theorem Effect.of_respondIndexed (i : Instr) (s : State) (e : Option Word) : Effect i s (s.respondIndexed e) := by
  cases e with
  | some v => exact Effect.of_respond i s v
  | none => exact ⟨rfl, rfl, rfl, ⟨_, rfl, fun _ => rfl⟩, .inl rfl, .inl rfl, .inr rfl⟩

/-- Every command completes, and changes no more than `Effect` says. -/
theorem exec_effect (i : Instr) (s : State) : ∃ t, exec i s = .next t ∧ Effect i s t := by
  cases i with
  | csrRd a => exact ⟨_, rfl, Effect.of_respondIndexed _ s _⟩
  | bfObs h =>
    refine ⟨_, rfl, ?_, ?_, ?_, ⟨{ status := .ok, data := 0#64 }, ?_, fun hr => absurd rfl hr⟩, .inr ⟨h, rfl, rfl⟩,
      .inl ?_, .inl ?_⟩ <;> simp
  | bfChk h => exact ⟨_, rfl, Effect.of_respond _ s _⟩
  | bfRdw q => exact ⟨_, rfl, Effect.of_respondIndexed _ s _⟩
  | llObs h => exact ⟨_, rfl, rfl, rfl, rfl, ⟨_, rfl, fun hr => absurd rfl hr⟩, .inl rfl, .inr ⟨h, rfl, rfl⟩, .inl rfl⟩
  | llEst => exact ⟨_, rfl, Effect.of_respond _ s _⟩
  | llSest => exact ⟨_, rfl, Effect.of_respond _ s _⟩
  | llHest => exact ⟨_, rfl, Effect.of_respond _ s _⟩
  | llRdb j => exact ⟨_, rfl, Effect.of_respondIndexed _ s _⟩
  | brPopcnt x => exact ⟨_, rfl, Effect.of_respond _ s _⟩
  | brCto x => exact ⟨_, rfl, Effect.of_respond _ s _⟩
  | brCtz x => exact ⟨_, rfl, Effect.of_respond _ s _⟩

/-- The two ways an accepted word runs: as the command it decodes to, or as `IllegalCommand` (R65). -/
theorem runWord_cases (w : CmdWord) (s : State) :
    (∃ i, decode w = .ok i ∧ runWord w s = exec i s) ∨
      (Opcode.ofCode? (cmdOpField w) = none ∧ runWord w s = .next (s.raise .illegalCommand)) := by
  unfold runWord
  cases h : Opcode.ofCode? (cmdOpField w) with
  | some o => exact .inl ⟨_, by rw [decode, h], by rw [decode, h]⟩
  | none => exact .inr ⟨rfl, by rw [decode, h]⟩

@[simp] theorem step_of_no_edges {s : State} (h : s.edges = []) : step s = .next s := by rw [step, h]

theorem step_of_edge {s : State} {e : Edge} {es : List Edge} (h : s.edges = e :: es) :
    step s = atEdge e { s with edges := es } := by rw [step, h]

theorem atEdge_reset {e : Edge} (h : e.rst = true) (s : State) : atEdge e s = .next s.resetEvent := by rw [atEdge, if_pos h]

theorem atEdge_accept {e : Edge} (h : e.rst = false) (hv : e.cmdValid = true) (hr : e.cmdReady = true) (s : State) :
    atEdge e s = runWord (cmdWordOf e.cmdOp e.cmdData) (deliver e s) := by
  simp [atEdge, Edge.accepted?, h, hv, hr]

theorem atEdge_idle {e : Edge} (h : e.rst = false) (hv : (e.cmdValid && e.cmdReady) = false) (s : State) :
    atEdge e s = .next (deliver e s) := by
  simp [atEdge, Edge.accepted?, h, hv]

theorem deliver_cases (e : Edge) (s : State) :
    ((e.rspValid && e.rspReady) = true ∧ deliver e s = s.dropResponse) ∨
      ((e.rspValid && e.rspReady) = false ∧ deliver e s = s) := by
  unfold deliver
  cases e.rspValid && e.rspReady <;> simp

/-- The word of `offer` is the word offered. -/
@[simp] theorem offer_accepted (w : CmdWord) : (offer w).accepted? = some w := by
  simp [offer, Edge.accepted?]

/-! ## Runs -/

@[simp] theorem after_zero (s : State) : after 0 s = some s := rfl

/-- One step of a run, for any machine. -/
theorem run_succ_of_step {M : Host.Core} {s u : M.State} (h : M.step s = .next u) (n : Nat) :
    Host.Core.run M (n + 1) s = Host.Core.run M n u := by rw [Host.Core.run, h]

theorem after_succ_of_step {s u : State} (h : step s = .next u) (n : Nat) : after (n + 1) s = after n u := by
  have hr : Host.Core.run core (n + 1) s = Host.Core.run core n u := run_succ_of_step (M := core) h n
  unfold after
  rw [hr]

@[simp] theorem runWords_nil (s : State) : runWords [] s = .next s := rfl

theorem runWords_cons_of_runWord {w : CmdWord} {s t : State} (h : runWord w s = .next t) (ws : List CmdWord) :
    runWords (w :: ws) s = runWords ws t := by rw [runWords, h]

/-- A command's own word runs it. -/
@[simp] theorem runWord_encode (i : Instr) (s : State) : runWord (encode i) s = exec i s := by
  rw [runWord, encode, decode]
  simp

end Sys2Proof.Machine
end

