-- ==== Sys2Proof/Laws/Exp2.lean ====
section
/-! SUPPORT. The search of `roundMulExp2` gives the rounded real number (R12, R115). -/

namespace Sys2Proof.Laws
open Sys2Proof.Machine

/-- The search finds the largest number the test admits. -/
theorem largestSuch_spec {test : ℕ → Bool} (down : ∀ m n, m ≤ n → test n = true → test m = true) (bits : ℕ) :
    ∀ acc, test acc = true → test (acc + 2 ^ bits) = false →
      test (largestSuch test bits acc) = true ∧ ∀ n, test n = true → n ≤ largestSuch test bits acc := by
  induction bits with
  | zero =>
    intro acc h0 h1
    refine ⟨h0, fun n hn => ?_⟩
    by_contra hlt
    have := down (acc + 1) n (not_le.1 hlt) hn
    simp_all
  | succ bits ih =>
    intro acc h0 h1
    rw [largestSuch]
    split
    · rename_i ht
      exact ih _ ht (by rw [add_assoc, ← two_mul, ← pow_succ']; exact h1)
    · rename_i ht
      exact ih _ h0 (by simpa using ht)

/-- R115: the integer comparison is the comparison of real numbers. -/
theorem roundTest_iff {q : Rat} (hq : 0 < q) (a : ℕ) {b : ℕ} (hb : b ≠ 0) (n : ℕ) :
    roundTest q a b n = true ↔ (n : ℝ) ≤ (q : ℝ) * 2 ^ ((a : ℝ) / b) + 1 / 2 := by
  have hqR : (0 : ℝ) < q := by exact_mod_cast hq
  have hx : 0 < (q : ℝ) * 2 ^ ((a : ℝ) / b) := by positivity
  rcases Nat.eq_zero_or_pos n with rfl | hn
  · refine iff_of_true ?_ (by push_cast; linarith)
    simp [roundTest, hb]
  · have hden : (0 : ℝ) < q.den := by exact_mod_cast q.pos
    have hnum : ((q.num.toNat : ℕ) : ℝ) = q * q.den := by
      have h1 : ((q.num.toNat : ℕ) : ℤ) = q.num := Int.toNat_of_nonneg (Rat.num_nonneg.2 hq.le)
      have h2 : ((q.num.toNat : ℕ) : ℝ) = ((q.num : ℤ) : ℝ) := by exact_mod_cast h1
      rw [h2, ← Rat.cast_intCast, ← Rat.mul_den_eq_num q]; push_cast; rfl
    have h2n : ((2 * n - 1 : ℕ) : ℝ) = 2 * n - 1 := by rw [Nat.cast_sub (by omega)]; push_cast; ring
    have hpow : ((2 * ((q : ℝ) * 2 ^ ((a : ℝ) / b)) * q.den) ^ b : ℝ) = (2 * (q * q.den)) ^ b * 2 ^ a := by
      have : ((2 : ℝ) ^ ((a : ℝ) / b)) ^ b = 2 ^ a := by
        rw [← Real.rpow_natCast, ← Real.rpow_mul (by norm_num), div_mul_cancel₀ _ (by exact_mod_cast hb), Real.rpow_natCast]
      rw [← this, ← mul_pow]; ring
    rw [roundTest, decide_eq_true_iff, ← Nat.cast_le (α := ℝ)]
    push_cast
    have hn1 : (1 : ℝ) ≤ n := by exact_mod_cast hn
    rw [h2n, hnum, ← hpow, pow_le_pow_iff_left₀ (mul_nonneg (by linarith) hden.le) (by positivity) hb]
    rw [mul_le_mul_iff_left₀ hden]
    constructor <;> intro h <;> linarith

/-- R115 decided: the search is R12's `round(q * 2^(a/b))`. -/
theorem roundMulExp2_eq_floor {q : Rat} (hq : 0 < q) (a : ℕ) {b : ℕ} (hb : b ≠ 0) :
    roundMulExp2 q a b = ⌊(q : ℝ) * 2 ^ ((a : ℝ) / b) + 1 / 2⌋₊ := by
  have hqR : (0 : ℝ) < q := by exact_mod_cast hq
  have hx : 0 ≤ (q : ℝ) * 2 ^ ((a : ℝ) / b) + 1 / 2 := by positivity
  have hiff := roundTest_iff hq a hb
  have hnum : (q : ℝ) ≤ q.num.toNat := by
    have h1 : ((q.num.toNat : ℕ) : ℤ) = q.num := Int.toNat_of_nonneg (Rat.num_nonneg.2 hq.le)
    have h2 : ((q.num.toNat : ℕ) : ℝ) = ((q.num : ℤ) : ℝ) := by exact_mod_cast h1
    have h3 : (q : ℝ) * q.den = ((q.num : ℤ) : ℝ) := by
      rw [← Rat.cast_intCast, ← Rat.mul_den_eq_num q]; push_cast; rfl
    have h4 : (1 : ℝ) ≤ q.den := by exact_mod_cast q.pos
    rw [h2, ← h3]; nlinarith
  have hbits : roundTest q a b (0 + 2 ^ (q.num.toNat.log2 + a / b + 3)) = false := by
    rw [zero_add, ← Bool.not_eq_true, hiff, not_le]
    have e1 : (q : ℝ) ≤ 2 ^ (q.num.toNat.log2 + 1) := by
      have : (q.num.toNat : ℝ) ≤ 2 ^ (q.num.toNat.log2 + 1) := by exact_mod_cast (Nat.lt_log2_self).le
      exact hnum.trans this
    have e2 : (2 : ℝ) ^ ((a : ℝ) / b) ≤ 2 ^ (a / b + 1) := by
      rw [← Real.rpow_natCast 2 (a / b + 1)]
      refine Real.rpow_le_rpow_of_exponent_le (by norm_num) ?_
      rw [div_le_iff₀ (by exact_mod_cast Nat.pos_of_ne_zero hb)]
      have h := (Nat.lt_mul_div_succ a (Nat.pos_of_ne_zero hb)).le
      rw [mul_comm] at h
      exact_mod_cast h
    have e3 : (1 : ℝ) ≤ 2 ^ (q.num.toNat.log2 + a / b) := one_le_pow₀ (by norm_num)
    calc (q : ℝ) * 2 ^ ((a : ℝ) / b) + 1 / 2 ≤ 2 ^ (q.num.toNat.log2 + 1) * 2 ^ (a / b + 1) + 1 / 2 := by gcongr
      _ = 4 * 2 ^ (q.num.toNat.log2 + a / b) + 1 / 2 := by ring
      _ < 8 * 2 ^ (q.num.toNat.log2 + a / b) := by linarith
      _ = ((2 ^ (q.num.toNat.log2 + a / b + 3) : ℕ) : ℝ) := by push_cast; ring
  have down : ∀ m n : ℕ, m ≤ n → roundTest q a b n = true → roundTest q a b m = true := fun m n hmn hn =>
    (hiff m).2 (le_trans (by exact_mod_cast hmn) ((hiff n).1 hn))
  obtain ⟨h1, h2⟩ := largestSuch_spec down _ 0 ((hiff 0).2 (by simpa using hx)) hbits
  refine le_antisymm (Nat.le_floor ((hiff _).1 h1)) ?_
  exact h2 _ ((hiff _).2 (Nat.floor_le hx))

end Sys2Proof.Laws
end

