-- ==== Sys2Proof/Laws/Hermite.lean ====
section
/-! SUPPORT. How far e^(-u/2b) keeps from every rational c/b, with numbers: Hermite's proof that e^r is irrational for a
rational r > 0. R115 needs it: the search for `round(B * ln(B / emptyCount))` ends because no half-integer is too close. -/

namespace Sys2Proof.Laws

open Polynomial

/-! ## The polynomial x^n * (1-x)^n and its derivatives at 0 and 1 -/

/-- Hermite's polynomial, less its factor 1/n!. -/
noncomputable def hermite (n : ℕ) : ℝ[X] := X ^ n * (1 - X) ^ n

theorem hermite_eval (n : ℕ) (s : ℝ) : (hermite n).eval s = s ^ n * (1 - s) ^ n := by
  simp [hermite]

theorem hermite_natDegree (n : ℕ) : (hermite n).natDegree ≤ 2 * n := by
  have h : ((1 : ℝ[X]) - X).natDegree ≤ 1 := by
    rw [show (1 : ℝ[X]) - X = C 1 - X by simp]; exact (natDegree_sub_le _ _).trans (by simp)
  calc (hermite n).natDegree ≤ n * 1 + n * 1 :=
        (natDegree_mul_le).trans (add_le_add (by simp) (natDegree_pow_le_of_le n h))
    _ = 2 * n := by ring

theorem hermite_symm (n : ℕ) : (hermite n).comp (1 - X) = hermite n := by
  simp [hermite, mul_comm]

theorem hermite_deriv_one (n j : ℕ) :
    (derivative^[j] (hermite n)).eval 1 = (-1) ^ j * (derivative^[j] (hermite n)).eval 0 := by
  have h := congrArg (eval 1) (iterate_derivative_comp_one_sub_X (hermite n) j)
  rw [hermite_symm] at h
  simpa using h

theorem hermite_coeff (n i : ℕ) : (hermite n).coeff (n + i) = (-1) ^ i * (n.choose i : ℝ) := by
  rw [hermite, add_comm n i, coeff_X_pow_mul]
  have : (1 - X : ℝ[X]) ^ n = ((1 + X) ^ n).comp (C (-1) * X) := by simp [sub_eq_add_neg]
  rw [this, comp_C_mul_X_coeff, coeff_one_add_X_pow, mul_comm]

theorem hermite_deriv_zero (n j : ℕ) :
    (derivative^[j] (hermite n)).eval 0 = if j < n then 0 else (j.factorial : ℝ) * ((-1) ^ (j - n) * (n.choose (j - n) : ℝ)) := by
  rw [← coeff_zero_eq_eval_zero, coeff_iterate_derivative]
  split
  · rename_i h
    simp [hermite, coeff_X_pow_mul', h]
  · rename_i h
    obtain ⟨i, rfl⟩ := Nat.exists_eq_add_of_le (not_lt.1 h)
    simp [hermite_coeff, Nat.descFactorial_self]

/-- The integral by its antiderivative, a sum over all derivatives of the polynomial. -/
theorem hermite_integral (n : ℕ) (r : ℝ) :
    r ^ (2 * n + 1) * ∫ s in (0 : ℝ)..1, Real.exp (-(r * s)) * (s ^ n * (1 - s) ^ n) =
      ∑ j ∈ Finset.range (2 * n + 1), r ^ (2 * n - j) *
        ((derivative^[j] (hermite n)).eval 0 - Real.exp (-r) * (derivative^[j] (hermite n)).eval 1) := by
  set G : ℝ → ℝ := fun s => ∑ j ∈ Finset.range (2 * n + 1), r ^ (2 * n - j) * (derivative^[j] (hermite n)).eval s with hG
  have hG' : ∀ s, HasDerivAt G (∑ j ∈ Finset.range (2 * n + 1), r ^ (2 * n - j) * (derivative^[j + 1] (hermite n)).eval s) s := by
    intro s
    have := HasDerivAt.fun_sum (u := Finset.range (2 * n + 1)) (x := s)
      (A := fun j s => r ^ (2 * n - j) * (derivative^[j] (hermite n)).eval s)
      (A' := fun j => r ^ (2 * n - j) * (derivative^[j + 1] (hermite n)).eval s)
      (fun j _ => by
        rw [Function.iterate_succ_apply']
        exact ((derivative^[j] (hermite n)).hasDerivAt s).const_mul _)
    exact this
  have tele : ∀ s, r * G s - ∑ j ∈ Finset.range (2 * n + 1), r ^ (2 * n - j) * (derivative^[j + 1] (hermite n)).eval s
      = r ^ (2 * n + 1) * (s ^ n * (1 - s) ^ n) := by
    intro s
    have h := Finset.sum_range_sub' (fun j => r ^ (2 * n + 1 - j) * (derivative^[j] (hermite n)).eval s) (2 * n + 1)
    have hz : derivative^[2 * n + 1] (hermite n) = 0 :=
      iterate_derivative_eq_zero (lt_of_le_of_lt (hermite_natDegree n) (Nat.lt_succ_self _))
    rw [hz] at h
    simp only [Function.iterate_zero, id, Nat.sub_zero, eval_zero, mul_zero, sub_zero, hermite_eval] at h
    rw [← h, hG, Finset.mul_sum, ← Finset.sum_sub_distrib]
    refine Finset.sum_congr rfl fun j hj => ?_
    have hj' : j ≤ 2 * n := Nat.lt_succ_iff.1 (Finset.mem_range.1 hj)
    rw [show 2 * n + 1 - j = (2 * n - j) + 1 by omega, show 2 * n + 1 - (j + 1) = 2 * n - j by omega]
    ring
  have hF : ∀ s ∈ Set.uIcc (0 : ℝ) 1, HasDerivAt (fun s => -(Real.exp (-(r * s)) * G s))
      (r ^ (2 * n + 1) * (Real.exp (-(r * s)) * (s ^ n * (1 - s) ^ n))) s := by
    intro s _
    have h1 : HasDerivAt (fun s : ℝ => Real.exp (-(r * s))) (Real.exp (-(r * s)) * (-(r * 1))) s :=
      ((((hasDerivAt_id s).const_mul r).neg).exp)
    have h2 := (h1.mul (hG' s)).neg
    refine h2.congr_deriv ?_
    rw [show r ^ (2 * n + 1) * (Real.exp (-(r * s)) * (s ^ n * (1 - s) ^ n)) =
      Real.exp (-(r * s)) * (r ^ (2 * n + 1) * (s ^ n * (1 - s) ^ n)) by ring, ← tele s]
    ring
  have hint := intervalIntegral.integral_eq_sub_of_hasDerivAt hF
    (Continuous.intervalIntegrable (by fun_prop) _ _)
  rw [← intervalIntegral.integral_const_mul, hint, hG]
  simp only [mul_sub, Finset.sum_sub_distrib, mul_one, mul_zero, neg_zero, Real.exp_zero, one_mul, Finset.mul_sum]
  rw [sub_neg_eq_add, neg_add_eq_sub]
  congr 1
  exact Finset.sum_congr rfl fun j _ => by ring

/-! ## The integral as a combination of 1 and e^(-r) with whole coefficients -/

/-- The size of the i-th coefficient. -/
def hermiteWeight (n u v i : ℕ) : ℕ := u ^ (n - i) * v ^ i * ((n + i).descFactorial i * n.choose i)

/-- Scaled to r = u/v, both coefficients are whole. -/
theorem hermite_numbers (n u v : ℕ) (hv : 0 < v) :
    (v : ℝ) ^ n * (((u : ℝ) / v) ^ (2 * n + 1) / n.factorial *
        ∫ s in (0 : ℝ)..1, Real.exp (-((u : ℝ) / v * s)) * (s ^ n * (1 - s) ^ n)) =
      (∑ i ∈ Finset.range (n + 1), (-1) ^ i * (hermiteWeight n u v i : ℝ)) -
        Real.exp (-((u : ℝ) / v)) * ((-1) ^ n * ∑ i ∈ Finset.range (n + 1), (hermiteWeight n u v i : ℝ)) := by
  have hvR : (v : ℝ) ≠ 0 := by positivity
  have hn : (n.factorial : ℝ) ≠ 0 := by positivity
  rw [div_mul_eq_mul_div, hermite_integral, show 2 * n + 1 = n + (n + 1) by ring, Finset.sum_range_add]
  rw [Finset.sum_eq_zero (s := Finset.range n), zero_add]
  · rw [Finset.sum_div, Finset.mul_sum, Finset.mul_sum, Finset.mul_sum, ← Finset.sum_sub_distrib]
    refine Finset.sum_congr rfl fun i hi => ?_
    have hi' : i ≤ n := Nat.lt_succ_iff.1 (Finset.mem_range.1 hi)
    rw [hermite_deriv_one, hermite_deriv_zero, if_neg (by omega), show n + i - n = i by omega,
      show 2 * n - (n + i) = n - i by omega, hermiteWeight]
    have hf : ((n + i).factorial : ℝ) = n.factorial * (n + i).descFactorial i := by
      rw [← Nat.factorial_mul_descFactorial (Nat.le_add_left i n)]; push_cast; congr 3; omega
    have hvn : (v : ℝ) ^ n = v ^ (n - i) * v ^ i := by rw [← pow_add, Nat.sub_add_cancel hi']
    have hs : ((-1 : ℝ) ^ i) * (-1) ^ i = 1 := by rw [← mul_pow]; simp
    rw [hf, hvn, div_pow, pow_add]
    push_cast
    field_simp
    linear_combination (-((u : ℝ) ^ (n - i) * (n.choose i : ℝ) * (-1 : ℝ) ^ n * Real.exp (-((u : ℝ) / v)))) * hs
  · intro j hj
    have hj' := Finset.mem_range.1 hj
    rw [hermite_deriv_one, hermite_deriv_zero, if_pos hj']
    simp

/-! ## Bounds on the integral and on the coefficients -/

theorem hermite_integrand_continuous (n : ℕ) (r : ℝ) :
    Continuous fun s : ℝ => Real.exp (-(r * s)) * (s ^ n * (1 - s) ^ n) := by fun_prop

theorem hermite_integral_le_one (n : ℕ) {r : ℝ} (hr : 0 ≤ r) :
    ∫ s in (0 : ℝ)..1, Real.exp (-(r * s)) * (s ^ n * (1 - s) ^ n) ≤ 1 := by
  have h : ∫ s in (0 : ℝ)..1, Real.exp (-(r * s)) * (s ^ n * (1 - s) ^ n) ≤ ∫ _ in (0 : ℝ)..1, (1 : ℝ) := by
    refine intervalIntegral.integral_mono_on zero_le_one ((hermite_integrand_continuous n r).intervalIntegrable _ _)
      (by simp) fun s hs => ?_
    have h1 : Real.exp (-(r * s)) ≤ 1 := Real.exp_le_one_iff.2 (neg_nonpos.2 (mul_nonneg hr hs.1))
    have h2 : s ^ n * (1 - s) ^ n ≤ 1 :=
      mul_le_one₀ (pow_le_one₀ hs.1 hs.2) (pow_nonneg (sub_nonneg.2 hs.2) _)
        (pow_le_one₀ (sub_nonneg.2 hs.2) (by linarith [hs.1]))
    exact mul_le_one₀ h1 (mul_nonneg (pow_nonneg hs.1 _) (pow_nonneg (sub_nonneg.2 hs.2) _)) h2
  simpa using h

theorem hermite_integral_ge (n : ℕ) {r : ℝ} (hr : 0 ≤ r) :
    Real.exp (-r) * (1 / 2 ^ (3 * n + 1)) ≤ ∫ s in (0 : ℝ)..1, Real.exp (-(r * s)) * (s ^ n * (1 - s) ^ n) := by
  have hc := hermite_integrand_continuous n r
  have nonneg : ∀ s ∈ Set.Icc (0 : ℝ) 1, 0 ≤ Real.exp (-(r * s)) * (s ^ n * (1 - s) ^ n) := fun s hs =>
    mul_nonneg (Real.exp_nonneg _) (mul_nonneg (pow_nonneg hs.1 _) (pow_nonneg (sub_nonneg.2 hs.2) _))
  have h1 : ∫ _ in (1 / 4 : ℝ)..(3 / 4), Real.exp (-r) * (1 / 8) ^ n ≤
      ∫ s in (1 / 4 : ℝ)..(3 / 4), Real.exp (-(r * s)) * (s ^ n * (1 - s) ^ n) := by
    refine intervalIntegral.integral_mono_on (by norm_num) (by simp) (hc.intervalIntegrable _ _) fun s hs => ?_
    have hs1 : 1 / 4 ≤ s := hs.1
    have hs2 : s ≤ 3 / 4 := hs.2
    rw [← mul_pow]
    refine mul_le_mul (Real.exp_le_exp.2 ?_) (pow_le_pow_left₀ (by norm_num) ?_ n) (by positivity) (Real.exp_nonneg _)
    · nlinarith
    · nlinarith
  have h2 : ∫ s in (1 / 4 : ℝ)..(3 / 4), Real.exp (-(r * s)) * (s ^ n * (1 - s) ^ n) ≤
      ∫ s in (0 : ℝ)..1, Real.exp (-(r * s)) * (s ^ n * (1 - s) ^ n) := by
    refine intervalIntegral.integral_mono_interval (by norm_num) (by norm_num) (by norm_num) ?_
      (hc.intervalIntegrable _ _)
    filter_upwards [MeasureTheory.ae_restrict_mem measurableSet_Ioc] with s hs
    exact nonneg s ⟨hs.1.le, hs.2⟩
  refine le_trans (le_of_eq ?_) (h1.trans h2)
  rw [intervalIntegral.integral_const, smul_eq_mul, pow_succ, pow_mul, one_div_pow]
  norm_num
  ring

theorem hermiteWeight_sum_le (n u v : ℕ) :
    ∑ i ∈ Finset.range (n + 1), hermiteWeight n u v i ≤ (2 * n) ^ n * (u + v) ^ n := by
  rcases Nat.eq_zero_or_pos n with rfl | hn
  · simp [hermiteWeight]
  rw [add_comm u v, add_pow, Finset.mul_sum]
  refine Finset.sum_le_sum fun i hi => ?_
  have hi' : i ≤ n := Nat.lt_succ_iff.1 (Finset.mem_range.1 hi)
  have h1 : (n + i).descFactorial i ≤ (2 * n) ^ n :=
    (Nat.descFactorial_le_pow _ _).trans ((Nat.pow_le_pow_left (by omega) i).trans (Nat.pow_le_pow_right (by omega) hi'))
  calc hermiteWeight n u v i = (n + i).descFactorial i * (v ^ i * u ^ (n - i) * n.choose i) := by
        rw [hermiteWeight]; ring
    _ ≤ _ := Nat.mul_le_mul_right _ h1

/-- The integral form of the difference, scaled to whole numbers. -/
noncomputable def hermiteJ (n u v : ℕ) : ℝ :=
  (v : ℝ) ^ n * (((u : ℝ) / v) ^ (2 * n + 1) / n.factorial *
    ∫ s in (0 : ℝ)..1, Real.exp (-((u : ℝ) / v * s)) * (s ^ n * (1 - s) ^ n))

theorem ratio_bounds {b u : ℕ} (hb : 2 ≤ b) (hu : 1 ≤ u) (hub : u ≤ 2 * b ^ 2) :
    0 < (u : ℝ) / (2 * b : ℕ) ∧ (u : ℝ) / (2 * b : ℕ) ≤ b ∧ (u : ℝ) ^ 2 / (2 * b : ℕ) ≤ 2 * b ^ 3 := by
  have hbR : (2 : ℝ) ≤ b := by exact_mod_cast hb
  have huR : (1 : ℝ) ≤ u := by exact_mod_cast hu
  have hubR : (u : ℝ) ≤ 2 * b ^ 2 := by exact_mod_cast hub
  have hv0 : (0 : ℝ) < (2 * b : ℕ) := by push_cast; linarith
  refine ⟨by positivity, ?_, ?_⟩
  · rw [div_le_iff₀ hv0]; push_cast; nlinarith
  · rw [div_le_iff₀ hv0]; push_cast
    nlinarith [pow_le_pow_left₀ (by linarith : (0 : ℝ) ≤ u) hubR 2]

theorem hermiteJ_small {b u n : ℕ} (hb : 2 ≤ b) (hu : 1 ≤ u) (hub : u ≤ 2 * b ^ 2) (hn : n = 32 * b ^ 3) :
    b * hermiteJ n u (2 * b) ≤ 1 / 2 := by
  obtain ⟨hr0, hrb, hq⟩ := ratio_bounds hb hu hub
  have hv0 : (0 : ℝ) < (2 * b : ℕ) := by exact_mod_cast (by omega : 0 < 2 * b)
  have hI1 := hermite_integral_le_one n hr0.le
  have hnR : (n : ℝ) = 32 * b ^ 3 := by rw [hn]; push_cast; ring
  have e1 : hermiteJ n u (2 * b) ≤ b * ((2 * b ^ 3 : ℝ) ^ n / n.factorial) := by
    have hq2 : ((2 * b : ℕ) : ℝ) ^ n * ((u : ℝ) / (2 * b : ℕ)) ^ (2 * n + 1) =
        (u : ℝ) / (2 * b : ℕ) * ((u : ℝ) ^ 2 / (2 * b : ℕ)) ^ n := by
      rw [pow_succ, pow_mul, ← mul_assoc, ← mul_pow, mul_comm]
      congr 2
      field_simp
    calc hermiteJ n u (2 * b)
        = (u : ℝ) / (2 * b : ℕ) * (((u : ℝ) ^ 2 / (2 * b : ℕ)) ^ n / n.factorial) *
            ∫ s in (0 : ℝ)..1, Real.exp (-((u : ℝ) / (2 * b : ℕ) * s)) * (s ^ n * (1 - s) ^ n) := by
          rw [hermiteJ, ← mul_div_assoc _ _ (n.factorial : ℝ), ← hq2]; ring
      _ ≤ (u : ℝ) / (2 * b : ℕ) * (((u : ℝ) ^ 2 / (2 * b : ℕ)) ^ n / n.factorial) * 1 := by gcongr
      _ ≤ b * ((2 * b ^ 3 : ℝ) ^ n / n.factorial) := by rw [mul_one]; gcongr
  have h4 : (0 : ℝ) < 4 ^ n := by positivity
  have e2 : (2 * b ^ 3 : ℝ) ^ n / n.factorial ≤ 1 / 4 ^ n := by
    have h := Real.pow_div_factorial_le_exp (32 * b ^ 3 : ℝ) (by positivity) n
    have hexp : Real.exp (32 * (b : ℝ) ^ 3) ≤ 4 ^ n := by
      rw [← hnR, show ((n : ℕ) : ℝ) = n * 1 by ring, Real.exp_nat_mul]
      exact pow_le_pow_left₀ (Real.exp_nonneg _) (by linarith [Real.exp_one_lt_d9]) n
    have e3 : (32 * b ^ 3 : ℝ) ^ n = 4 ^ n * 4 ^ n * (2 * b ^ 3 : ℝ) ^ n := by
      rw [← mul_pow, ← mul_pow]; ring
    rw [e3, mul_div_assoc] at h
    rw [le_div_iff₀ h4]
    nlinarith [h.trans hexp]
  have e4 : (2 * b ^ 2 : ℝ) ≤ 4 ^ n := by
    have h1 : 2 * b ^ 2 ≤ n := by rw [hn]; nlinarith [Nat.pow_le_pow_left hb 2]
    have h2 : n < 4 ^ n := Nat.lt_pow_self (by norm_num)
    exact_mod_cast (h1.trans h2.le)
  calc b * hermiteJ n u (2 * b) ≤ b * (b * (1 / 4 ^ n)) := by gcongr; exact e1.trans (by gcongr)
    _ = b ^ 2 / 4 ^ n := by ring
    _ ≤ 1 / 2 := by rw [div_le_iff₀ h4]; linarith

theorem hermiteWeight_sum_le_two_pow {b u n : ℕ} (hb : 2 ≤ b) (hub : u ≤ 2 * b ^ 2) (hn : n = 32 * b ^ 3) :
    ∑ i ∈ Finset.range (n + 1), hermiteWeight n u (2 * b) i ≤ 2 ^ ((8 + 5 * b) * n) := by
  have b_le : b ≤ 2 ^ b := (Nat.lt_two_pow_self).le
  rw [pow_mul]
  refine (hermiteWeight_sum_le n u (2 * b)).trans ((mul_pow _ _ n).symm.le.trans (Nat.pow_le_pow_left ?_ n))
  calc 2 * n * (u + 2 * b) ≤ 64 * b ^ 3 * (4 * b ^ 2) :=
        Nat.mul_le_mul (by omega) (by nlinarith)
    _ = 2 ^ 8 * b ^ 5 := by ring
    _ ≤ 2 ^ 8 * (2 ^ b) ^ 5 := by gcongr
    _ = 2 ^ (8 + 5 * b) := by rw [pow_add, ← pow_mul, mul_comm b 5]

theorem factorial_le_two_pow {b n : ℕ} (hn : n = 32 * b ^ 3) : n.factorial ≤ 2 ^ ((5 + 3 * b) * n) := by
  have b_le : b ≤ 2 ^ b := (Nat.lt_two_pow_self).le
  rw [pow_mul]
  refine (Nat.factorial_le_pow n).trans (Nat.pow_le_pow_left ?_ n)
  calc n = 2 ^ 5 * b ^ 3 := hn
    _ ≤ 2 ^ 5 * (2 ^ b) ^ 3 := by gcongr
    _ = 2 ^ (5 + 3 * b) := by rw [pow_add, ← pow_mul, mul_comm b 3]

theorem hermiteJ_ge {b u n : ℕ} (hb : 2 ≤ b) (hu : 1 ≤ u) (hub : u ≤ 2 * b ^ 2) (hn : n = 32 * b ^ 3) :
    1 / (2 : ℝ) ^ (2 * b * (2 * n + 1) + (5 + 3 * b) * n + 2 * b + (3 * n + 1)) ≤ hermiteJ n u (2 * b) := by
  obtain ⟨hr0, hrb, -⟩ := ratio_bounds hb hu hub
  have hI0 := hermite_integral_ge n hr0.le
  have hbR : (2 : ℝ) ≤ b := by exact_mod_cast hb
  have huR : (1 : ℝ) ≤ u := by exact_mod_cast hu
  have hvR : ((2 * b : ℕ) : ℝ) = 2 * b := by push_cast; ring
  have f1 : (n.factorial : ℝ) ≤ 2 ^ ((5 + 3 * b) * n) := by exact_mod_cast factorial_le_two_pow hn
  have r1 : 1 / 2 ^ (2 * b) ≤ (u : ℝ) / (2 * b : ℕ) := by
    rw [hvR, div_le_div_iff₀ (by positivity) (by linarith)]
    have : (2 * b : ℝ) ≤ 2 ^ (2 * b) := by exact_mod_cast (Nat.lt_two_pow_self (n := 2 * b)).le
    nlinarith [pow_pos (by norm_num : (0 : ℝ) < 2) (2 * b)]
  have x1 : 1 / 2 ^ (2 * b) ≤ Real.exp (-((u : ℝ) / (2 * b : ℕ))) := by
    rw [Real.exp_neg, one_div]
    refine inv_anti₀ (Real.exp_pos _) ?_
    calc Real.exp ((u : ℝ) / (2 * b : ℕ)) ≤ Real.exp b := Real.exp_le_exp.2 hrb
      _ = Real.exp 1 ^ b := by rw [← Real.exp_nat_mul]; simp
      _ ≤ (2 ^ 2) ^ b := pow_le_pow_left₀ (Real.exp_nonneg _) (by linarith [Real.exp_one_lt_d9]) b
      _ = 2 ^ (2 * b) := by rw [← pow_mul]
  have hvn : (1 : ℝ) ≤ ((2 * b : ℕ) : ℝ) ^ n := one_le_pow₀ (by rw [hvR]; linarith)
  have e : 1 / (2 : ℝ) ^ (2 * b * (2 * n + 1) + (5 + 3 * b) * n + 2 * b + (3 * n + 1)) =
      (1 / 2 ^ (2 * b)) ^ (2 * n + 1) / 2 ^ ((5 + 3 * b) * n) * (1 / 2 ^ (2 * b) * (1 / 2 ^ (3 * n + 1))) := by
    rw [one_div_pow, ← pow_mul, pow_add, pow_add, pow_add]
    field_simp
  rw [e, hermiteJ]
  refine le_trans (mul_le_mul ?_ (le_trans (by gcongr) hI0) (by positivity) (by positivity))
    (le_mul_of_one_le_left (mul_nonneg (by positivity) (le_trans (by positivity) hI0)) hvn)
  exact div_le_div₀ (by positivity) (pow_le_pow_left₀ (by positivity) r1 _) (by positivity) f1

theorem hermite_exponents {b n : ℕ} (hb : 2 ≤ b) (hn : n = 32 * b ^ 3) :
    (8 + 5 * b) * n + (2 * b * (2 * n + 1) + (5 + 3 * b) * n + 2 * b + (3 * n + 1)) ≤ 704 * b ^ 4 := by
  have hnb : b * n = 32 * b ^ 4 := by rw [hn]; ring
  have hn8 : 256 ≤ n := by rw [hn]; nlinarith [Nat.pow_le_pow_left hb 3]
  nlinarith

/-- e^(-u/2b) keeps a stated distance from every rational c/b: Hermite's proof that it is irrational, with numbers. -/
theorem exp_neg_far_from_ratio {b c u : ℕ} (hb : 2 ≤ b) (hu : 1 ≤ u) (hub : u ≤ 2 * b ^ 2) :
    1 / 2 ^ (704 * b ^ 4) ≤ |(b : ℝ) * Real.exp (-((u : ℝ) / (2 * b : ℕ))) - c| := by
  obtain ⟨n, hn⟩ : ∃ n, n = 32 * b ^ 3 := ⟨_, rfl⟩
  have hbR : (2 : ℝ) ≤ b := by exact_mod_cast hb
  have hsmall := hermiteJ_small hb hu hub hn
  have hge := hermiteJ_ge hb hu hub hn
  have key : hermiteJ n u (2 * b) = _ := hermite_numbers n u (2 * b) (by omega)
  have hW2 := hermiteWeight_sum_le_two_pow hb hub hn
  have hE := hermite_exponents hb hn
  generalize hermiteJ n u (2 * b) = J at hsmall hge key
  generalize 2 * b * (2 * n + 1) + (5 + 3 * b) * n + 2 * b + (3 * n + 1) = E at hge hE
  generalize Real.exp (-((u : ℝ) / (2 * b : ℕ))) = x at key ⊢
  obtain ⟨W, hW⟩ : ∃ W : ℕ, W = ∑ i ∈ Finset.range (n + 1), hermiteWeight n u (2 * b) i := ⟨_, rfl⟩
  obtain ⟨A, hA⟩ : ∃ A : ℤ, A = ∑ i ∈ Finset.range (n + 1), (-1) ^ i * (hermiteWeight n u (2 * b) i : ℤ) := ⟨_, rfl⟩
  have key' : J = (A : ℝ) - x * ((-1) ^ n * (W : ℝ)) := by rw [key, hA, hW]; push_cast; rfl
  rw [← hW] at hW2
  have hJpos : 0 < J := lt_of_lt_of_le (by positivity) hge
  have hbig : (W : ℝ) * (1 / 2 ^ (704 * b ^ 4)) < b * J := by
    have w1 : (W : ℝ) ≤ 2 ^ ((8 + 5 * b) * n) := by exact_mod_cast hW2
    calc (W : ℝ) * (1 / 2 ^ (704 * b ^ 4)) ≤ 2 ^ ((8 + 5 * b) * n) * (1 / 2 ^ ((8 + 5 * b) * n + E)) := by
          gcongr; norm_num
      _ = 1 / 2 ^ E := by rw [pow_add]; field_simp
      _ ≤ J := hge
      _ < b * J := by nlinarith
  by_contra hcon
  rw [not_le] at hcon
  have hK : (((b : ℤ) * A - c * ((-1) ^ n * W) : ℤ) : ℝ) = b * J + ((-1) ^ n * W) * (b * x - c) := by
    rw [key']; push_cast; ring
  have hWD : |((-1 : ℝ) ^ n * W) * (b * x - c)| < b * J := by
    rw [abs_mul, abs_mul, abs_pow, abs_neg, abs_one, one_pow, one_mul, Nat.abs_cast]
    exact lt_of_le_of_lt (mul_le_mul_of_nonneg_left hcon.le (Nat.cast_nonneg _)) hbig
  obtain ⟨h1, h2⟩ := abs_lt.1 hWD
  have k0 : (0 : ℝ) < (((b : ℤ) * A - c * ((-1) ^ n * W) : ℤ) : ℝ) := by rw [hK]; linarith
  have k1 : (((b : ℤ) * A - c * ((-1) ^ n * W) : ℤ) : ℝ) < 1 := by rw [hK]; linarith
  have k0' : 0 < (b : ℤ) * A - c * ((-1) ^ n * W) := by exact_mod_cast k0
  have k1' : (b : ℤ) * A - c * ((-1) ^ n * W) < 1 := by exact_mod_cast k1
  omega

end Sys2Proof.Laws
end

