-- ==== Sys2Proof/Laws/Ln.lean ====
section
/-! SUPPORT. The search of `roundMulLn` ends within its fuel, with the rounded real number (R12, R113, R115). -/

namespace Sys2Proof.Laws

open Sys2Proof.Machine

theorem roundHalfUp_eq_floor (x : Rat) : roundHalfUp x = ⌊(x : ℝ) + 1 / 2⌋₊ := by
  have h : ((x + 1 / 2 : Rat) : ℝ) = (x : ℝ) + 1 / 2 := by push_cast; ring
  rw [roundHalfUp, ← h, ← Int.floor_toNat, Rat.floor_cast]
  rfl

/-- The first `i` terms of the series of ln((1+z)/(1-z)). -/
def lnPartial (z : Rat) (i : ℕ) : Rat := ∑ j ∈ Finset.range i, 2 * z ^ (2 * j + 1) / (2 * j + 1)

/-- The bound on what the first `i` terms leave out. -/
def lnTail (z : Rat) (i : ℕ) : Rat := 2 * z ^ (2 * i + 1) / (1 - z * z)

theorem lnSearch_eq_of_agreement {b z : Rat} {n : ℕ} (fuel : ℕ) :
    ∀ (i : ℕ) (pow sum : Rat), pow = z ^ (2 * i + 1) → sum = lnPartial z i →
    (∀ j, roundHalfUp (b * lnPartial z j) ≤ n ∧ n ≤ roundHalfUp (b * (lnPartial z j + lnTail z j))) →
    (∃ j, i ≤ j ∧ j < i + fuel ∧ roundHalfUp (b * lnPartial z j) = roundHalfUp (b * (lnPartial z j + lnTail z j))) →
    lnSearch b z fuel i pow sum = n := by
  induction fuel with
  | zero => rintro i pow sum - - - ⟨j, h1, h2, -⟩; omega
  | succ fuel ih =>
    intro i pow sum hp hs hn ⟨j, h1, h2, h3⟩
    have ht : sum + 2 * pow / (1 - z * z) = lnPartial z i + lnTail z i := by rw [hp, hs, lnTail]
    rw [lnSearch, ht, hs]
    split
    · rename_i heq
      have := hn i
      omega
    · rename_i hne
      refine ih (i + 1) _ _ ?_ ?_ hn ⟨j, ?_, by omega, h3⟩
      · rw [hp]; ring
      · rw [hp, lnPartial, lnPartial, Finset.sum_range_succ]
      · rcases Nat.eq_or_lt_of_le h1 with rfl | h
        · exact absurd h3 hne
        · exact h

theorem lnPartial_bounds {z : Rat} (h0 : 0 ≤ z) (h1 : z < 1) (i : ℕ) :
    ((lnPartial z i : Rat) : ℝ) ≤ Real.log (1 + z) - Real.log (1 - z) ∧
      Real.log (1 + z) - Real.log (1 - z) ≤ ((lnPartial z i + lnTail z i : Rat) : ℝ) := by
  have h0R : (0 : ℝ) ≤ z := by exact_mod_cast h0
  have h1R : (z : ℝ) < 1 := by exact_mod_cast h1
  have hs := Real.hasSum_log_sub_log_of_abs_lt_one (x := (z : ℝ)) (by rw [abs_of_nonneg h0R]; exact h1R)
  have hcast : ((lnPartial z i : Rat) : ℝ) = ∑ j ∈ Finset.range i, 2 * (1 / (2 * (j : ℝ) + 1)) * (z : ℝ) ^ (2 * j + 1) := by
    rw [lnPartial]; push_cast
    exact Finset.sum_congr rfl fun j _ => by ring
  have hpos : ∀ j : ℕ, 0 ≤ 2 * (1 / (2 * (j : ℝ) + 1)) * (z : ℝ) ^ (2 * j + 1) := fun j => by positivity
  have hz2 : (z : ℝ) * z < 1 := by nlinarith
  refine ⟨?_, ?_⟩
  · rw [hcast, ← hs.tsum_eq]
    exact hs.summable.sum_le_tsum _ fun j _ => hpos j
  · have hg : HasSum (fun j : ℕ => 2 * (z : ℝ) ^ (2 * i + 1) * ((z : ℝ) * z) ^ j) (2 * (z : ℝ) ^ (2 * i + 1) * (1 - (z : ℝ) * z)⁻¹) :=
      (hasSum_geometric_of_lt_one (by positivity) hz2).mul_left _
    have htail := (hasSum_nat_add_iff' i).2 hs
    have hle := hasSum_le (fun j => ?_) htail hg
    · have hct : ((lnTail z i : Rat) : ℝ) = 2 * (z : ℝ) ^ (2 * i + 1) * (1 - (z : ℝ) * z)⁻¹ := by
        rw [lnTail]; push_cast; rw [div_eq_mul_inv]
      rw [Rat.cast_add, hct, hcast]
      linarith
    · have hj : 1 / (2 * ((j + i : ℕ) : ℝ) + 1) ≤ 1 := by
        rw [div_le_one (by positivity)]; push_cast; linarith [(Nat.cast_nonneg j : (0 : ℝ) ≤ j), (Nat.cast_nonneg i : (0 : ℝ) ≤ i)]
      have hz : (z : ℝ) ^ (2 * (j + i) + 1) = (z : ℝ) ^ (2 * i + 1) * ((z : ℝ) * z) ^ j := by
        rw [← pow_two, ← pow_mul, ← pow_add]; congr 1; ring
      rw [hz]
      have : 0 ≤ (z : ℝ) ^ (2 * i + 1) * ((z : ℝ) * z) ^ j := by positivity
      nlinarith

/-- `z` of `roundMulLn`. -/
def lnRatio (b e : ℕ) : Rat := ((b : Rat) - e) / (b + e)

theorem lnRatio_bounds {b e : ℕ} (he : 1 ≤ e) (heb : e < b) :
    0 ≤ lnRatio b e ∧ lnRatio b e ≤ 1 - 1 / b ∧ 1 / (b : Rat) ≤ 1 - lnRatio b e * lnRatio b e := by
  have heR : (1 : Rat) ≤ e := by exact_mod_cast he
  have hebR : (e : Rat) + 1 ≤ b := by exact_mod_cast heb
  have hb : (0 : Rat) < b := by linarith
  have hs : (0 : Rat) < b + e := by linarith
  have h0 : 0 ≤ lnRatio b e := div_nonneg (by linarith) hs.le
  have h1 : lnRatio b e ≤ 1 - 1 / b := by
    rw [lnRatio, div_le_iff₀ hs, sub_mul, one_mul, div_mul_eq_mul_div, one_mul]
    have : ((b : Rat) + e) / b ≤ 2 := by rw [div_le_iff₀ hb]; linarith
    linarith
  refine ⟨h0, h1, ?_⟩
  have h2 : 0 ≤ 1 / (b : Rat) := by positivity
  have h3 : lnRatio b e ≤ 1 := by linarith
  nlinarith

theorem lnRatio_log {b e : ℕ} (he : 1 ≤ e) (heb : e < b) :
    Real.log (1 + lnRatio b e) - Real.log (1 - lnRatio b e) = Real.log ((b : ℝ) / e) := by
  have heR : (1 : ℝ) ≤ e := by exact_mod_cast he
  have hebR : (e : ℝ) + 1 ≤ b := by exact_mod_cast heb
  have hs : (0 : ℝ) < b + e := by linarith
  have he0 : (0 : ℝ) < e := by linarith
  have hb0 : (0 : ℝ) < b := by linarith
  have h1 : (1 : ℝ) + lnRatio b e = 2 * b / (b + e) := by rw [lnRatio]; push_cast; field_simp; ring
  have h2 : (1 : ℝ) - lnRatio b e = 2 * e / (b + e) := by rw [lnRatio]; push_cast; field_simp; ring
  rw [h1, h2, ← Real.log_div (by positivity) (by positivity)]
  congr 1
  field_simp

/-- After `512 b^5` terms the two ends are closer to each other than any half-integer is to `b * ln(b/e)`. -/
theorem lnTail_lt {b e : ℕ} (he : 1 ≤ e) (heb : e < b) :
    (b : ℝ) * (lnTail (lnRatio b e) (512 * b ^ 5) : Rat) < 1 / 2 ^ (704 * b ^ 4) := by
  obtain ⟨h0, h1, h2⟩ := lnRatio_bounds he heb
  have hb2 : 2 ≤ b := by omega
  have hbR : (2 : ℝ) ≤ b := by exact_mod_cast hb2
  generalize lnRatio b e = z at h0 h1 h2 ⊢
  have h0R : (0 : ℝ) ≤ z := by exact_mod_cast h0
  have h1R : (z : ℝ) ≤ 1 - 1 / (b : ℝ) := by
    have := (Rat.cast_le (K := ℝ)).2 h1
    push_cast at this; exact this
  have h2R : 1 / (b : ℝ) ≤ 1 - (z : ℝ) * z := by
    have := (Rat.cast_le (K := ℝ)).2 h2
    push_cast at this; exact this
  have hpow : (z : ℝ) ^ (2 * (512 * b ^ 5) + 1) ≤ 1 / 2 ^ (1024 * b ^ 4) := by
    have hz1 : (z : ℝ) ≤ Real.exp (-(1 / b)) := h1R.trans (by linarith [Real.add_one_le_exp (-(1 / (b : ℝ)))])
    have hle1 : (z : ℝ) ≤ 1 := h1R.trans (sub_le_self 1 (by positivity))
    have hb1 : (z : ℝ) ^ b ≤ 1 / 2 := by
      calc (z : ℝ) ^ b ≤ Real.exp (-(1 / b)) ^ b := pow_le_pow_left₀ h0R hz1 b
        _ = Real.exp (-1) := by rw [← Real.exp_nat_mul]; congr 1; field_simp
        _ ≤ 1 / 2 := by
          rw [Real.exp_neg, one_div]
          exact inv_anti₀ (by norm_num) (by linarith [Real.exp_one_gt_d9])
    calc (z : ℝ) ^ (2 * (512 * b ^ 5) + 1) ≤ (z : ℝ) ^ (b * (1024 * b ^ 4)) :=
          pow_le_pow_of_le_one h0R hle1 (by ring_nf; omega)
      _ ≤ (1 / 2) ^ (1024 * b ^ 4) := by rw [pow_mul]; exact pow_le_pow_left₀ (by positivity) hb1 _
      _ = 1 / 2 ^ (1024 * b ^ 4) := by rw [one_div_pow]
  have hsq : (2 * b * b : ℝ) < 2 ^ (320 * b ^ 4) := by
    have h : 2 * b * b < 2 ^ (320 * b ^ 4) := by
      have : 2 * b * b ≤ 320 * b ^ 4 := by nlinarith [Nat.pow_le_pow_left hb2 2, Nat.one_le_pow 2 b (by omega)]
      exact lt_of_le_of_lt this Nat.lt_two_pow_self
    exact_mod_cast h
  have hinv : (1 - (z : ℝ) * z)⁻¹ ≤ b := by
    have : (0 : ℝ) < 1 / b := by positivity
    calc (1 - (z : ℝ) * z)⁻¹ ≤ (1 / (b : ℝ))⁻¹ := inv_anti₀ this h2R
      _ = b := by simp
  have hct : ((lnTail z (512 * b ^ 5) : Rat) : ℝ) = 2 * (z : ℝ) ^ (2 * (512 * b ^ 5) + 1) * (1 - (z : ℝ) * z)⁻¹ := by
    rw [lnTail]; push_cast; rw [div_eq_mul_inv]
  rw [hct]
  calc (b : ℝ) * (2 * (z : ℝ) ^ (2 * (512 * b ^ 5) + 1) * (1 - (z : ℝ) * z)⁻¹)
      ≤ (b : ℝ) * (2 * (1 / 2 ^ (1024 * b ^ 4)) * b) := by
        have h0 : 0 ≤ (1 - (z : ℝ) * z)⁻¹ := inv_nonneg.2 (le_trans (by positivity) h2R)
        gcongr
    _ = (2 * b * b : ℝ) * (1 / 2 ^ (1024 * b ^ 4)) := by ring
    _ < (2 : ℝ) ^ (320 * b ^ 4) * (1 / 2 ^ (1024 * b ^ 4)) := mul_lt_mul_of_pos_right hsq (by positivity)
    _ = 1 / (2 : ℝ) ^ (704 * b ^ 4) := by
      rw [show 1024 * b ^ 4 = 320 * b ^ 4 + 704 * b ^ 4 by ring, pow_add]; field_simp

/-- No half-integer m - 1/2 lies near `b * ln(b/e)`. -/
theorem mul_log_far_from_half {b e m : ℕ} (he : 1 ≤ e) (heb : e < b) (hm : 1 ≤ m)
    (hnear : |(b : ℝ) * Real.log ((b : ℝ) / e) - ((m : ℝ) - 1 / 2)| ≤ 1) :
    1 / 2 ^ (704 * b ^ 4) ≤ |(b : ℝ) * Real.log ((b : ℝ) / e) - ((m : ℝ) - 1 / 2)| := by
  have heR : (1 : ℝ) ≤ e := by exact_mod_cast he
  have hebR : (e : ℝ) + 1 ≤ b := by exact_mod_cast heb
  have hmR : (1 : ℝ) ≤ m := by exact_mod_cast hm
  have hb2 : 2 ≤ b := by omega
  have hb0 : (0 : ℝ) < b := by linarith
  have hlog0 : 0 ≤ Real.log ((b : ℝ) / e) := Real.log_nonneg (by rw [le_div_iff₀ (by linarith)]; linarith)
  have hlogb : Real.log ((b : ℝ) / e) ≤ b - 1 := by
    refine (Real.log_le_sub_one_of_pos (by positivity)).trans ?_
    have : (b : ℝ) / e ≤ b := div_le_self hb0.le heR
    linarith
  have hu : ((2 * m - 1 : ℕ) : ℝ) = 2 * m - 1 := by rw [Nat.cast_sub (by omega)]; push_cast; ring
  have hub : 2 * m - 1 ≤ 2 * b ^ 2 := by
    have h1 := (abs_le.1 hnear).1
    have h2 : (m : ℝ) ≤ b * (b - 1) + 3 / 2 := by nlinarith [mul_le_mul_of_nonneg_left hlogb hb0.le]
    have : ((2 * m - 1 : ℕ) : ℝ) ≤ 2 * b ^ 2 := by rw [hu]; nlinarith
    exact_mod_cast this
  have hfar := exp_neg_far_from_ratio (c := e) hb2 (by omega : 1 ≤ 2 * m - 1) hub
  refine hfar.trans ?_
  have hr : ((2 * m - 1 : ℕ) : ℝ) / (2 * b : ℕ) = ((m : ℝ) - 1 / 2) / b := by
    rw [hu]; push_cast; field_simp
  rw [hr]
  set r : ℝ := ((m : ℝ) - 1 / 2) / b with hrdef
  set l : ℝ := Real.log ((b : ℝ) / e) with hl
  have hr0 : 0 ≤ r := div_nonneg (by linarith) hb0.le
  have hel : (e : ℝ) = b * Real.exp (-l) := by
    rw [Real.exp_neg, hl, Real.exp_log (by positivity)]; field_simp
  have hlip : ∀ x y : ℝ, 0 ≤ x → x ≤ y → Real.exp (-x) - Real.exp (-y) ≤ y - x := fun x y hx hxy => by
    have h1 : Real.exp (-y) = Real.exp (-x) * Real.exp (-(y - x)) := by rw [← Real.exp_add]; congr 1; ring
    have h2 : Real.exp (-x) ≤ 1 := Real.exp_le_one_iff.2 (by linarith)
    have h3 := Real.add_one_le_exp (-(y - x))
    have h4 := Real.exp_nonneg (-x)
    rw [h1]; nlinarith
  have hmono : ∀ x y : ℝ, x ≤ y → Real.exp (-y) ≤ Real.exp (-x) := fun x y h => Real.exp_le_exp.2 (by linarith)
  have habs : |Real.exp (-r) - Real.exp (-l)| ≤ |l - r| := by
    rcases le_total r l with h | h
    · rw [abs_of_nonneg (sub_nonneg.2 (hmono _ _ h)), abs_of_nonneg (sub_nonneg.2 h)]; exact hlip r l hr0 h
    · rw [abs_sub_comm, abs_of_nonneg (sub_nonneg.2 (hmono _ _ h)), abs_sub_comm, abs_of_nonneg (sub_nonneg.2 h)]
      exact hlip l r hlog0 h
  have e1 : (b : ℝ) * Real.exp (-r) - e = b * (Real.exp (-r) - Real.exp (-l)) := by rw [hel]; ring
  have e2 : (b : ℝ) * l - ((m : ℝ) - 1 / 2) = b * (l - r) := by rw [hrdef]; field_simp
  rw [e1, e2, abs_mul, abs_mul]
  exact mul_le_mul_of_nonneg_left habs (abs_nonneg _)

/-- The result of the search is the rounded real number: R12's `round(b * ln(b/e))`. -/
theorem roundMulLn_eq_floor {b e : ℕ} (he : 1 ≤ e) (heb : e ≤ b) :
    roundMulLn b e = ⌊(b : ℝ) * Real.log ((b : ℝ) / e) + 1 / 2⌋₊ := by
  rcases Nat.eq_or_lt_of_le heb with rfl | hlt
  · have h0 : (e : ℝ) ≠ 0 := by positivity
    rw [roundMulLn, if_pos rfl, div_self h0, Real.log_one]
    norm_num
  · rw [roundMulLn, if_neg (by omega)]
    obtain ⟨z0, z1, -⟩ := lnRatio_bounds he hlt
    have hb0 : (0 : ℝ) ≤ b := Nat.cast_nonneg b
    have hbq : (0 : Rat) < b := by exact_mod_cast (by omega : 0 < b)
    have z1' : lnRatio b e < 1 := lt_of_le_of_lt z1 (sub_lt_self 1 (one_div_pos.2 hbq))
    have bounds := lnPartial_bounds z0 z1'
    rw [lnRatio_log he hlt] at bounds
    refine lnSearch_eq_of_agreement _ 0 _ _ (by simp) (by simp [lnPartial]) (fun j => ?_)
      ⟨512 * b ^ 5, Nat.zero_le _, ?_, ?_⟩
    · change roundHalfUp ((b : Rat) * lnPartial (lnRatio b e) j) ≤ _ ∧ _ ≤ roundHalfUp ((b : Rat) * (lnPartial (lnRatio b e) j + lnTail (lnRatio b e) j))
      rw [roundHalfUp_eq_floor, roundHalfUp_eq_floor]
      refine ⟨Nat.floor_le_floor ?_, Nat.floor_le_floor ?_⟩
      · have := mul_le_mul_of_nonneg_left (bounds j).1 hb0
        push_cast; linarith
      · have := mul_le_mul_of_nonneg_left (bounds j).2 hb0
        push_cast at this ⊢; linarith
    · have : 0 < b ^ 5 := Nat.pow_pos (by omega)
      rw [lnFuel]; omega
    · change roundHalfUp ((b : Rat) * lnPartial (lnRatio b e) (512 * b ^ 5)) = roundHalfUp ((b : Rat) * (lnPartial (lnRatio b e) (512 * b ^ 5) + lnTail (lnRatio b e) (512 * b ^ 5)))
      obtain ⟨b1, b2⟩ := bounds (512 * b ^ 5)
      have ht := lnTail_lt he hlt
      rw [roundHalfUp_eq_floor, roundHalfUp_eq_floor]
      generalize lnTail (lnRatio b e) (512 * b ^ 5) = t at b1 b2 ht ⊢
      generalize lnPartial (lnRatio b e) (512 * b ^ 5) = p at b1 b2 ⊢
      push_cast at b2 ⊢
      have b1' := mul_le_mul_of_nonneg_left b1 hb0
      have b2' := mul_le_mul_of_nonneg_left b2 hb0
      by_contra hne
      have hle : ⌊(b : ℝ) * p + 1 / 2⌋₊ < ⌊(b : ℝ) * (p + t) + 1 / 2⌋₊ :=
        lt_of_le_of_ne (Nat.floor_le_floor (by linarith)) hne
      set m := ⌊(b : ℝ) * (p + t) + 1 / 2⌋₊ with hm
      have hm1 : 1 ≤ m := by omega
      have hm2 : (m : ℝ) ≤ (b : ℝ) * (p + t) + 1 / 2 :=
        (Nat.le_floor_iff' (by omega : m ≠ 0)).1 le_rfl
      have hm3 : (b : ℝ) * p + 1 / 2 < m := Nat.lt_of_floor_lt hle
      have hone : 1 / (2 : ℝ) ^ (704 * b ^ 4) ≤ 1 := by
        rw [div_le_one (by positivity)]; exact one_le_pow₀ (by norm_num)
      have hd : |(b : ℝ) * Real.log ((b : ℝ) / e) - ((m : ℝ) - 1 / 2)| < 1 / 2 ^ (704 * b ^ 4) := by
        refine lt_of_le_of_lt ?_ ht
        rw [abs_le]
        constructor <;> linarith
      exact absurd (mul_log_far_from_half he hlt hm1 (hd.le.trans hone)) (not_le.2 hd)

end Sys2Proof.Laws
end

