-- ==== Sys2Proof/Laws/PerInstr.lean ====
section
/-! SUPPORT. Statements about every command as syntax, one lemma per constructor. -/

namespace Sys2Proof.Laws.AssignedOpcode

/-- The command's code is assigned, and to the command's own row (R64). -/
def Statement (i : Instr) : Prop := Opcode.ofCode? i.opcode.code = some i.opcode ∧ i.opcode ∈ Opcode.all

theorem csrRd (a : Word) : Statement (.csrRd a) := ⟨Opcode.ofCode?_code _, Opcode.mem_all _⟩
theorem bfObs (h : Word) : Statement (.bfObs h) := ⟨Opcode.ofCode?_code _, Opcode.mem_all _⟩
theorem bfChk (h : Word) : Statement (.bfChk h) := ⟨Opcode.ofCode?_code _, Opcode.mem_all _⟩
theorem bfRdw (q : Word) : Statement (.bfRdw q) := ⟨Opcode.ofCode?_code _, Opcode.mem_all _⟩
theorem llObs (h : Word) : Statement (.llObs h) := ⟨Opcode.ofCode?_code _, Opcode.mem_all _⟩
theorem llEst : Statement .llEst := ⟨Opcode.ofCode?_code _, Opcode.mem_all _⟩
theorem llSest : Statement .llSest := ⟨Opcode.ofCode?_code _, Opcode.mem_all _⟩
theorem llHest : Statement .llHest := ⟨Opcode.ofCode?_code _, Opcode.mem_all _⟩
theorem llRdb (j : Word) : Statement (.llRdb j) := ⟨Opcode.ofCode?_code _, Opcode.mem_all _⟩
theorem brPopcnt (x : Word) : Statement (.brPopcnt x) := ⟨Opcode.ofCode?_code _, Opcode.mem_all _⟩
theorem brCto (x : Word) : Statement (.brCto x) := ⟨Opcode.ofCode?_code _, Opcode.mem_all _⟩
theorem brCtz (x : Word) : Statement (.brCtz x) := ⟨Opcode.ofCode?_code _, Opcode.mem_all _⟩

end Sys2Proof.Laws.AssignedOpcode
end

