-- ==== Sys2Proof/Laws/Reference.lean ====
section
/-! SUPPORT. What the merge of two arrays (R168) reads as, and that it keeps the canonical form. -/

namespace Sys2Proof.Machine

variable {w : Nat}

theorem Cells.mergeWith_cons (f : BitVec w → BitVec w → BitVec w) (c : Cells w) (a : Nat) (x : BitVec w) (d : Cells w) :
    Cells.mergeWith f c ((a, x) :: d) = Cells.mergeWith f (c.write a (f (c.read a) x)) d := rfl

theorem Cells.wf_mergeWith {bound lo : Nat} (f : BitVec w → BitVec w → BitVec w) (c d : Cells w)
    (hc : Cells.wf bound c = true) (hd : Cells.wfFrom bound lo d = true) : Cells.wf bound (Cells.mergeWith f c d) = true := by
  induction d generalizing c lo with
  | nil => exact hc
  | cons e d ih =>
    obtain ⟨a, x⟩ := e
    simp only [Cells.wfFrom, Bool.and_eq_true, decide_eq_true_eq] at hd
    exact ih _ (Cells.wf_write _ _ hd.1.1.2 hc) hd.2

/-- An element of a merge is the two elements combined, for a function that keeps its first argument beside 0. -/
theorem Cells.read_mergeWith {bound lo : Nat} {f : BitVec w → BitVec w → BitVec w} (hf : ∀ x, f x 0#w = x) (c d : Cells w)
    (hc : Cells.wf bound c = true) (hd : Cells.wfFrom bound lo d = true) (i : Nat) :
    Cells.read (Cells.mergeWith f c d) i = f (Cells.read c i) (Cells.read d i) := by
  induction d generalizing c lo with
  | nil => exact (hf _).symm
  | cons e d ih =>
    obtain ⟨a, x⟩ := e
    simp only [Cells.wfFrom, Bool.and_eq_true, decide_eq_true_eq] at hd
    rw [Cells.mergeWith_cons, ih _ (Cells.wf_write _ _ hd.1.1.2 hc) hd.2, Cells.read_cons]
    split
    · rename_i h
      subst h
      rw [Cells.read_write_self i _ c hc, Cells.read_eq_zero_of_lt d hd.2 (Nat.lt_succ_self i), hf]
    · rename_i h
      rw [Cells.read_write_ne h]

/-- A word of the merged `BV` is the bitwise OR of the two words. -/
theorem read_mergeBv {s t : State} {bound : Nat} (hs : s.bv.wf bound = true) (ht : t.bv.wf bound = true) (q : Nat) :
    (mergeBv s t).read q = s.bvWord q ||| t.bvWord q :=
  Cells.read_mergeWith (fun _ => BitVec.or_zero) _ _ hs ht q

/-- A counter of the merged `BK` is the larger of the two counters. -/
theorem toNat_read_mergeBk {s t : State} {bound : Nat} (hs : s.bk.wf bound = true) (ht : t.bk.wf bound = true) (j : Nat) :
    ((mergeBk s t).read j).toNat = max (s.bkCounter j).toNat (t.bkCounter j).toNat := by
  rw [mergeBk, Cells.read_mergeWith (fun x => BitVec.eq_of_toNat_eq (by simp)) _ _ hs ht, BitVec.toNat_ofNat,
    Nat.mod_eq_of_lt (max_lt (Cells.read s.bk j).isLt (Cells.read t.bk j).isLt), State.bkCounter, State.bkCounter]

end Sys2Proof.Machine
end

