-- ==== Sys2Proof/Tests/Slice0.lean ====
section
/-! SUPPORT. The model's own tests, each one step or one function on a small state, the expected values from
`95_test_vectors.md` or a rule's own examples; and for every statement with hypotheses a state and operands that meet
them (`test_meets_…`). -/

namespace Sys2Proof.Tests

open Sys2Proof.Machine

/-! ## Helpers -/

/-- The state of configuration (`BF_M`, 2^`p`) with these arrays. -/
def stateWith (w : BloomWidth) (p : Fin 64) (bv : Cells 64) (bk : Cells 7) : State :=
  { State.resetOf { width := w, llP := p } with bv := bv, bk := bk }

/-- The state whose counters are these. -/
def bucketState (p : Fin 64) (l : List (BitVec 7)) : State :=
  stateWith .w256 p [] ((l.zipIdx.map fun e => (e.2, e.1)).filter fun e => e.2 != 0#7)

def nextOf (o : Host.Outcome State Fault Refusal) : Option State :=
  match o with
  | .next t => some t
  | .fault _ => none
  | .refused _ => none

/-- The response a command produced. -/
def responseOf (i : Instr) (s : State) : Option Response := (nextOf (exec i s)).bind fun t => t.rsp.getLast?

/-- Program A after its step 2, Program B after its step 6, and one illegal command. -/
def sample : State :=
  { stateWith .w256 4 [(0, 0x0010000000040000#64)] [(3, 3#7), (10, 60#7), (15, 4#7)] with
    ill := true, rsp := [{ status := .illegalCmd, data := 0#64 }] }

/-- An edge at which nothing is offered on either port. -/
def idleEdge : Edge :=
  { rst := false, cmdValid := false, cmdReady := true, cmdOp := 0#8, cmdData := 0#64, rspValid := true, rspReady := false }

def resetEdge : Edge := { idleEdge with rst := true, cmdValid := true }

/-- An edge that accepts a command word and delivers a response. -/
def busyEdge (w : CmdWord) : Edge := { offer w with rspValid := true, rspReady := true }

/-! ## What is written down -/

theorem test_wf_accepts_operand : AsmLine.wf { mnemonic := .op .bfObs, operand := some 0x123456789ABCDEF0 } = true := by
  decide
theorem test_wf_accepts_no_operand : AsmLine.wf { mnemonic := .op .llEst, operand := none } = true := by decide
theorem test_wf_refuses_missing_operand : AsmLine.wf { mnemonic := .op .brCto, operand := none } = false := by decide
theorem test_wf_refuses_operand_of_n_form : AsmLine.wf { mnemonic := .op .llHest, operand := some 0 } = false := by decide
theorem test_wf_refuses_wide_literal : AsmLine.wf { mnemonic := .op .bfRdw, operand := some (2 ^ 64) } = false := by decide
theorem test_assemble_refuses_ill_formed : assemble { mnemonic := .llAdd, operand := some (2 ^ 64) } = none := by decide
theorem test_assemble_bf_add : assemble { mnemonic := .bfAdd, operand := some 0x07C8FFFFFFFFFFFF } =
    some (.bfObs 0x07C8FFFFFFFFFFFF#64) := by decide
theorem test_assemble_ll_add : assemble { mnemonic := .llAdd, operand := some 255 } = some (.llObs 0xFF#64) := by decide

/-! ## Command words, written out from the opcode map -/

theorem test_decode_csrRd : decode 0x010000000000000002#72 = .ok (.csrRd 2#64) := by decide
theorem test_decode_bfObs : decode 0x10123456789ABCDEF0#72 = .ok (.bfObs 0x123456789ABCDEF0#64) := by decide
theorem test_decode_bfChk : decode 0x1112C8000000000000#72 = .ok (.bfChk 0x12C8000000000000#64) := by decide
theorem test_decode_bfRdw : decode 0x120000000000000400#72 = .ok (.bfRdw 1024#64) := by decide
theorem test_decode_llObs : decode 0x20FFFFFFFFFFFFFFFA#72 = .ok (.llObs 0xFFFFFFFFFFFFFFFA#64) := by decide
theorem test_decode_llEst : decode 0x21FFFFFFFFFFFFFFFF#72 = .ok .llEst := by decide
theorem test_decode_llSest : decode 0x220000000000000000#72 = .ok .llSest := by decide
theorem test_decode_llHest : decode 0x238000000000000001#72 = .ok .llHest := by decide
theorem test_decode_llRdb : decode 0x24000000000000000A#72 = .ok (.llRdb 10#64) := by decide
theorem test_decode_brPopcnt : decode 0x300000000000000381#72 = .ok (.brPopcnt 897#64) := by decide
theorem test_decode_brCto : decode 0x310000000000000017#72 = .ok (.brCto 23#64) := by decide
theorem test_decode_brCtz : decode 0x328000000000000000#72 = .ok (.brCtz 0x8000000000000000#64) := by decide
theorem test_decode_refuses_zero_word : decode 0#72 = .error (.reservedOpcode 0x00#8) := by decide
theorem test_decode_refuses_after_bfRdw : decode 0x130000000000000000#72 = .error (.reservedOpcode 0x13#8) := by decide
theorem test_decode_refuses_after_brCtz : decode 0x330000000000000001#72 = .error (.reservedOpcode 0x33#8) := by decide
theorem test_decode_refuses_ff : decode 0xFF0000000000000123#72 = .error (.reservedOpcode 0xFF#8) := by decide
theorem test_table_word : decodeTableWord 72 0x24000000000000000A = some (.llRdb 10#64) := by decide

/-! ## construct (`95_test_vectors.md` section 2.6) -/

theorem test_construct_smallest : construct 65536 1 = .ok (State.resetOf { width := .w65536, llP := 0 }) := by decide +kernel
theorem test_construct_largest : construct 65536 (2 ^ 63) = .ok (State.resetOf { width := .w65536, llP := 63 }) := by
  decide +kernel
theorem test_construct_refuses_above : construct 65536 (2 ^ 64) = .error .configurationError := by decide +kernel
theorem test_construct_refuses_zero : construct 256 0 = .error .configurationError := by decide +kernel
theorem test_construct_refuses_1000 : construct 256 1000 = .error .configurationError := by decide +kernel
theorem test_construct_refuses_width : construct 512 16 = .error .configurationError := by decide +kernel

/-! ## One step of each command (`95_test_vectors.md` sections 2 and 3) -/

theorem test_csrRd_config : responseOf (.csrRd 0#64) State.reset = some { status := .ok, data := 0x448#64 } := by decide
theorem test_csrRd_compares_high_bits : responseOf (.csrRd 0x100000000#64) State.reset =
    some { status := .badIndex, data := 0#64 } := by decide
theorem test_bfObs_two_words : (nextOf (exec (.bfObs 0x07C8FFFFFFFFFFFF#64) State.reset)).map State.bv =
    some [(0, 0x80#64), (3, 0x100#64)] := by decide
theorem test_bfObs_collision : (nextOf (exec (.bfObs 0xABAB000000000000#64) State.reset)).map State.bv =
    some [(2, 0x0000080000000000#64)] := by decide
theorem test_bfChk_other_order : responseOf (.bfChk 0x3412000000000000#64) sample = some { status := .ok, data := 1#64 } := by
  decide
theorem test_bfChk_one_clear : responseOf (.bfChk 0x1235000000000000#64) sample = some { status := .ok, data := 0#64 } := by
  decide
theorem test_bfRdw_word : responseOf (.bfRdw 0#64) sample = some { status := .ok, data := 0x0010000000040000#64 } := by decide
theorem test_bfRdw_beyond : responseOf (.bfRdw 4#64) sample = some { status := .badIndex, data := 0#64 } := by decide
theorem test_llObs_raises : (nextOf (exec (.llObs 0xFFFFFFFFFFFFFFFF#64) (stateWith .w65536 10 [] [(752, 3#7)]))).map State.bk =
    some [(752, 3#7), (1023, 54#7)] := by decide
theorem test_llObs_never_lowers : (nextOf (exec (.llObs 0x13#64) sample)).map State.bk = some sample.bk := by decide
theorem test_llEst_row : responseOf .llEst sample = some { status := .ok, data := 196#64 } := by decide +kernel
theorem test_llEst_one_bucket : responseOf .llEst (bucketState 0 [64]) =
    some { status := .ok, data := 6400017556693939192#64 } := by decide +kernel
theorem test_llSest_fifteen_tens : responseOf .llSest (bucketState 4 (0 :: List.replicate 15 10)) =
    some { status := .ok, data := 6938#64 } := by decide +kernel
theorem test_llSest_one_bucket : responseOf .llSest (bucketState 0 [64]) = some { status := .ok, data := 0#64 } := by
  decide +kernel
theorem test_llHest_small_range : responseOf .llHest (bucketState 2 [0, 1, 1, 1]) = some { status := .ok, data := 6#64 } := by
  decide +kernel
theorem test_llHest_raw_with_empty : responseOf .llHest (bucketState 4 (0 :: List.replicate 15 10)) =
    some { status := .ok, data := 340#64 } := by decide +kernel
theorem test_llRdb_counter : responseOf (.llRdb 10#64) sample = some { status := .ok, data := 60#64 } := by decide
theorem test_llRdb_beyond : responseOf (.llRdb 16#64) sample = some { status := .badIndex, data := 0#64 } := by decide
theorem test_brPopcnt : responseOf (.brPopcnt 0x123456789ABCDEF0#64) sample = some { status := .ok, data := 32#64 } := by decide
theorem test_brPopcnt_ones : responseOf (.brPopcnt 0xFFFFFFFFFFFFFFFF#64) sample = some { status := .ok, data := 64#64 } := by
  decide
theorem test_brCto_run_at_zero : responseOf (.brCto 897#64) sample = some { status := .ok, data := 1#64 } := by decide
theorem test_brCto_63 : responseOf (.brCto 0x7FFFFFFFFFFFFFFF#64) sample = some { status := .ok, data := 63#64 } := by decide
theorem test_brCtz_zero : responseOf (.brCtz 0#64) sample = some { status := .ok, data := 64#64 } := by decide
theorem test_brCtz_top : responseOf (.brCtz 0x8000000000000000#64) sample = some { status := .ok, data := 63#64 } := by decide

/-! ## Exceptions, reset, the ports -/

theorem test_illegal_sets_ill : nextOf (runWord 0x130000000000000000#72 State.reset) =
    some { State.reset with ill := true, rsp := [{ status := .illegalCmd, data := 0#64 }] } := by decide
theorem test_failing_read_sets_idx : nextOf (exec (.csrRd 2#64) State.reset) =
    some { State.reset with idx := true, rsp := [{ status := .badIndex, data := 0#64 }] } := by decide
theorem test_reset_edge_wins : nextOf (step { sample with edges := [resetEdge] }) = some State.reset := by decide
theorem test_fetched_word_runs : (nextOf (step (State.reset.withFetchWord 72 0x10123456789ABCDEF0))).map State.bv =
    some [(0, 0x0010000000040000#64)] := by decide
theorem test_delivery_before_own_response : (nextOf (step { sample with edges := [busyEdge 0x310000000000000017#72] })).map
    State.rsp = some [{ status := .ok, data := 3#64 }] := by decide
theorem test_response_word : (sample.rspWord? idleEdge) = some 0x10000000000000000#66 := by decide

/-! ## The hypotheses of the statements can be met -/

theorem test_meets_invariant : sample.Inv where
  bvForm := by decide
  bkForm := by decide
  bkRange := fun j => by
    change (Cells.read [(3, 3#7), (10, 60#7), (15, 4#7)] j).toNat ≤ 60
    simp only [Cells.read]
    split
    · decide
    split
    · decide
    split <;> decide
  errorData := by decide

theorem test_meets_EmptyFilter (p : Params) : ∀ i, (State.resetOf p).bvBit i = false := State.bvBit_resetOf p

theorem test_meets_DecodeEncodeRoundTrip : Instr.wf (.llRdb 0xFFFFFFFFFFFFFFFF#64) = true := by decide

theorem test_meets_EncodeDecodeRoundTrip :
    (decode 0x24FFFFFFFFFFFFFFFF#72 = .ok (.llRdb 0xFFFFFFFFFFFFFFFF#64) ∧
      (Instr.llRdb 0xFFFFFFFFFFFFFFFF#64).opcode.form ≠ .unused) ∧
    decode 0x23FFFFFFFFFFFFFFFF#72 = .ok .llHest ∧ Instr.llHest.opcode.form = .unused := by decide

theorem test_meets_reserved : ¬∃ i, decode 0xFF0000000000000123#72 = .ok i := by
  rintro ⟨i, h⟩
  rw [test_decode_refuses_ff] at h
  cases h

theorem test_meets_UnusedOperandBits :
    sample.params.width = .w256 ∧
    (0x1234000000000000#64 : Word).extractLsb' 48 16 = (0x1234FFFFFFFFFFFF#64 : Word).extractLsb' 48 16 ∧
    2 ^ 63 ≤ (0x8000000000000000#64 : Word).toNat := by decide

theorem test_meets_ResponseWordFields : ∃ r ∈ sample.rsp, r.status.code = 1#2 ∨ r.status.code = 2#2 := by decide

theorem test_meets_ConstructValidates :
    (∃ p ≤ 63, 2 ^ 63 = 2 ^ p) ∧ ¬((512 = 256 ∨ 512 = 65536) ∧ ∃ p ≤ 63, 16 = 2 ^ p) :=
  ⟨⟨63, le_rfl, rfl⟩, fun h => absurd h.1 (by decide)⟩

theorem test_meets_BiasConstant : (1024 : Nat) ≠ 16 ∧ 1024 ≠ 32 ∧ 1024 ≠ 64 := by decide

/-- An edge without reset that accepts a command and delivers a response, and a reset edge. -/
theorem test_meets_steps :
    (∃ t, step { sample with edges := [busyEdge 0x210000000000000000#72] } = .next t) ∧
    (∃ t, step { sample with edges := [resetEdge] } = .next t) ∧ resetEdge.rst = true ∧
    (busyEdge 0x210000000000000000#72).rst = false := ⟨⟨_, rfl⟩, ⟨_, rfl⟩, rfl, rfl⟩

theorem test_meets_StatusFlagsAreSticky :
    (busyEdge 0xFF0000000000000123#72).accepted? = some 0xFF0000000000000123#72 ∧
    (decode 0x010000000000000002#72 = .ok (.csrRd 2#64) ∧ 2 ≤ (2#64 : Word).toNat) ∧
    (decode 0x120000000000000004#72 = .ok (.bfRdw 4#64) ∧ sample.params.bfM / 64 ≤ (4#64 : Word).toNat) ∧
    (decode 0x240000000000000010#72 = .ok (.llRdb 16#64) ∧ sample.params.llB ≤ (16#64 : Word).toNat) := by decide

theorem test_meets_no_csrRd : (∀ a, Instr.llEst ≠ .csrRd a) ∧ ∃ t, exec .llEst sample = .next t := ⟨nofun, ⟨_, rfl⟩⟩

theorem test_meets_StepRunsAcceptedCommand :
    (busyEdge 0x21FFFFFFFFFFFFFFFF#72).rst = false ∧ (busyEdge 0x21FFFFFFFFFFFFFFFF#72).cmdValid = true ∧
    (busyEdge 0x21FFFFFFFFFFFFFFFF#72).cmdReady = true ∧
    decode (cmdWordOf (busyEdge 0x21FFFFFFFFFFFFFFFF#72).cmdOp (busyEdge 0x21FFFFFFFFFFFFFFFF#72).cmdData) =
      .ok .llEst := by decide

theorem test_meets_StepWithoutAcceptance :
    sample.edges = [] ∧ (idleEdge.rst = false ∧ idleEdge.cmdValid = false) ∧
    ({ offer 0#72 with cmdReady := false } : Edge).rst = false ∧ ({ offer 0#72 with cmdReady := false } : Edge).cmdReady = false := by
  decide

theorem test_meets_OfferedResponseIsStable :
    sample.rsp.head? = some { status := .illegalCmd, data := 0#64 } ∧ sample.rspValid idleEdge = true ∧
    (sample.rspValid (busyEdge 0#72) && (busyEdge 0#72).rspReady) = true ∧
    (sample.rspValid idleEdge && idleEdge.rspReady) = false := by decide

/-- A run of two edges, both accepting a command. -/
theorem test_meets_runs :
    noReset (({ sample with edges := [busyEdge 0x210000000000000000#72, busyEdge 0#72] } : State).edges.take 2) = true ∧
    ∃ t, after 2 { sample with edges := [busyEdge 0x210000000000000000#72, busyEdge 0#72] } = some t := ⟨by decide, ⟨_, rfl⟩⟩

theorem test_meets_StateInvariants :
    (State.Inv { sample with edges := [resetEdge] } ∧ ∃ t, step { sample with edges := [resetEdge] } = .next t) ∧
    State.Inv { sample with edges := [busyEdge 0x2000000000000000FF#72] } ∧
    ∃ t, step { sample with edges := [busyEdge 0x2000000000000000FF#72] } = .next t :=
  ⟨⟨test_meets_invariant.congr rfl rfl rfl test_meets_invariant.errorData, _, rfl⟩,
    test_meets_invariant.congr rfl rfl rfl test_meets_invariant.errorData, _, rfl⟩

theorem test_meets_BadIndexEntry :
    sample.params.bfM / 64 ≤ (4#64 : Word).toNat ∧ sample.params.llB ≤ (16#64 : Word).toNat ∧ 2 ≤ (2#64 : Word).toNat := by
  decide

theorem test_meets_ErrorsChangeNothingElse : ∃ t,
    runWord 0x010000000000000002#72 sample = .next t ∧ t.rsp = sample.rsp ++ [{ status := .badIndex, data := 0#64 }] ∧
    RspStatus.badIndex ≠ .ok := ⟨_, rfl, rfl, by decide⟩

theorem test_meets_NineCommandsNeverRaise : (Instr.brCtz 0#64).opcode.form ≠ .index := by decide

theorem test_meets_widths : sample.params.width = .w256 ∧ (stateWith .w65536 10 [] []).params.width = .w65536 := by decide

theorem test_meets_GeneralSlicing : 1 < (subHashes sample.params 0#64).length := by decide

theorem test_meets_BfObs_repeated : sample.Inv ∧ ∃ t u, exec (.bfObs 0x1234000000000000#64) sample = .next t ∧
    exec (.bfObs 0x1234000000000000#64) { sample with bv := t.bv } = .next u := ⟨test_meets_invariant, _, _, rfl, rfl⟩

theorem test_meets_BfObs_example : State.reset.params.width = .w256 ∧ (∀ i, State.reset.bvBit i = false) ∧
    ∃ t, exec (.bfObs 0x123456789ABCDEF0#64) State.reset = .next t := ⟨rfl, State.bvBit_resetOf _, _, rfl⟩

theorem test_meets_BfChk_hit : ∀ i ∈ subHashes sample.params 0x1234000000000000#64, sample.bvBit i = true := by decide
theorem test_meets_BfChk_miss : ∃ i ∈ subHashes sample.params 0x1235000000000000#64, sample.bvBit i = false := by decide

theorem test_meets_BfChk_after_observe : ∃ t,
    subHashes sample.params 0x5678FFFFFFFFFFFF#64 = subHashes sample.params 0x5678000000000000#64 ∧
    exec (.bfObs 0x5678000000000000#64) { sample with edges := [idleEdge] } = .next t ∧
    noReset (t.edges.take 1) = true ∧ ∃ u, after 1 t = some u :=
  ⟨_, by decide, rfl, by decide, _, rfl⟩

theorem test_meets_BfRdwReadsWord : (3#64 : Word).toNat < sample.params.bfM / 64 ∧ sample.params.bfM / 64 ≤ (4#64 : Word).toNat :=
  by decide

theorem test_meets_ObserveSetsDistinctSlices : ∃ t, exec (.bfObs 0xABAB000000000000#64) (State.resetOf sample.params) = .next t :=
  ⟨_, rfl⟩

/-- `BF.CHK` answers 1, another run follows; and reads repeated without a `BF.OBS` between. -/
theorem test_meets_BloomFilterProperties :
    exec (.bfChk 0x1234000000000000#64) sample =
      .next { sample with rsp := sample.rsp ++ [{ status := .ok, data := 1#64 }] } ∧
    (∃ t, exec (.bfRdw 3#64) sample = .next t ∧ t.rsp = sample.rsp ++ [{ status := .ok, data := 0#64 }] ∧
      ∃ u, runWords [0x210000000000000000#72, 0#72] t = .next u) ∧
    (∀ w ∈ [0x210000000000000000#72, 0#72], ∀ h, decode w ≠ .ok (.bfObs h)) ∧
    (∃ t, runWord 0#72 sample = .next t) ∧ sample.bvBit 18 = true := by
  refine ⟨rfl, ⟨_, rfl, rfl, _, rfl⟩, fun w hw h => ?_, ⟨_, rfl⟩, by decide⟩
  simp only [List.mem_cons, List.not_mem_nil, or_false] at hw
  rcases hw with rfl | rfl <;> exact nofun

theorem test_meets_bucket_exponents :
    (⟨.w256, 4⟩ : Params).llP = 4 ∧ (⟨.w256, 0⟩ : Params).llP.val = 0 ∧ (⟨.w256, 0⟩ : Params).llB = 1 := by decide

theorem test_meets_RankIsTrailingOnes : 2 < rank sample.params 0xDEADBEEF00000073#64 ∧
    rank sample.params 0xDEADBEEF00000073#64 < 64 - sample.params.llP.val ∧
    rank sample.params 0xFFFFFFFFFFFFFFFA#64 = 64 - sample.params.llP.val := by decide

theorem test_meets_LlObsRaisesOneCounter : sample.Inv ∧
    cto (0x13#64 >>> sample.params.llP.val) ≤ (sample.bkCounter ((0x13#64 : Word).toNat % sample.params.llB)).toNat :=
  ⟨test_meets_invariant, by decide⟩

theorem test_meets_LlRdbReadsCounter : (15#64 : Word).toNat < sample.params.llB ∧ sample.params.llB ≤ (16#64 : Word).toNat := by
  decide

theorem test_meets_CountersAreMaximalRanks : ∃ t,
    runWords ([0x73#64, 0x13#64].map fun h => encode (.llObs h)) (State.resetOf sample.params) = .next t := ⟨_, rfl⟩

theorem test_meets_LlSestIsRoundedTrimmedMean :
    ([0, 0, 0, 0, 0, 0, 0, 0, 0, 0, 0, 0, 0, 3, 4, 60] : List Nat).Perm sample.buckets ∧
    ([0, 0, 0, 0, 0, 0, 0, 0, 0, 0, 0, 0, 0, 3, 4, 60] : List Nat).Pairwise (· ≤ ·) ∧ 14 = 9 * sample.params.llB / 10 ∧
    14 ≠ 0 ∧ (bucketState 0 [64]).params.llB = 1 := by decide

theorem test_meets_LlHest_small : State.reset.buckets.count 0 = 16 ∧
    (2 * (State.reset.params.llB : ℝ) * (State.reset.params.alpha : ℝ) *
      (State.reset.params.llB / (State.reset.buckets.map fun v => 1 / (2 : ℝ) ^ v).sum) < 5 / 2 * State.reset.params.llB) := by
  refine ⟨by decide, ?_⟩
  rw [show State.reset.buckets = List.replicate 16 0 by decide, show State.reset.params.llB = 16 by decide,
    show State.reset.params.alpha = 673 / 1000 by decide +kernel]
  norm_num

/-- A state without an empty bucket: the other branch, whatever raw is. -/
theorem test_meets_LlHest_raw (x : Prop) : (bucketState 4 (List.replicate 16 5)).buckets.count 0 = 0 ∧
    8 ≤ (bucketState 4 (List.replicate 16 5)).params.llB ∧
    ¬(x ∧ 1 ≤ (bucketState 4 (List.replicate 16 5)).buckets.count 0) := by
  have h : (bucketState 4 (List.replicate 16 5)).buckets.count 0 = 0 := by decide
  exact ⟨h, by decide, fun hx => absurd hx.2 (by rw [h]; decide)⟩

theorem test_meets_EstimatesIgnoreBucketOrder :
    (bucketState 2 [0, 1, 1, 3]).params.llP = (bucketState 2 [3, 1, 0, 1]).params.llP ∧
    (bucketState 2 [0, 1, 1, 3]).buckets.Perm (bucketState 2 [3, 1, 0, 1]).buckets := by decide

theorem test_meets_BitRunFunctions : 2 < cto 23#64 ∧ (∀ i < 3, (23#64 : Word).getLsbD i = true) ∧ 3 < ctz 0x10#64 ∧
    ∀ i < 4, (0x10#64 : Word).getLsbD i = false := by decide

theorem test_meets_ReadsHaveNoSideEffects :
    (∀ h, Instr.bfRdw 4#64 ≠ .bfObs h) ∧ (∀ h, Instr.bfRdw 4#64 ≠ .llObs h) ∧ ∃ t, exec (.bfRdw 4#64) sample = .next t :=
  ⟨nofun, nofun, _, rfl⟩

theorem test_meets_UnitsDoNotInterfere :
    (∃ t, exec (.bfChk 0#64) sample = .next t) ∧ ∃ t, exec .llHest sample = .next t := ⟨⟨_, rfl⟩, _, rfl⟩

theorem test_meets_ObservesCommute : sample.Inv ∧
    (∀ i ∈ [Instr.bfObs 1#64, .llObs 2#64], ∃ h, i = .bfObs h ∨ i = .llObs h) ∧
    (∀ i, i ∈ [Instr.bfObs 1#64, .llObs 2#64] ↔ i ∈ [Instr.llObs 2#64, .bfObs 1#64, .llObs 2#64]) ∧
    (∃ t, runWords ([Instr.bfObs 1#64, .llObs 2#64].map encode) sample = .next t) ∧
    ∃ t, runWords ([Instr.llObs 2#64, .bfObs 1#64, .llObs 2#64].map encode) sample = .next t := by
  refine ⟨test_meets_invariant, ?_, fun i => ?_, ⟨_, rfl⟩, _, rfl⟩
  · simp
  · simp only [List.mem_cons, List.not_mem_nil, or_false]
    tauto

theorem test_meets_MergeEqualsReplay :
    (∃ s, runWords (([5#64].flatMap observeHash).map encode) (State.resetOf sample.params) = .next s) ∧
    (∃ s, runWords (([6#64].flatMap observeHash).map encode) (State.resetOf sample.params) = .next s) ∧
    ∃ t, runWords ((([5#64] ++ [6#64]).flatMap observeHash).map encode) (State.resetOf sample.params) = .next t :=
  ⟨⟨_, rfl⟩, ⟨_, rfl⟩, _, rfl⟩

end Sys2Proof.Tests
end

section
/-! PROOFS. Construction and the bias constant (R6, R7, R8): the legal pairs of numbers are exactly the two numbers some
`Params` stands for, and `construct` looks for that `Params`. -/

namespace Sys2Proof

/-- R8's arm for every bucket count without one of its own. -/
theorem alpha_otherwise {b : Nat} (h16 : b ≠ 16) (h32 : b ≠ 32) (h64 : b ≠ 64) :
    alpha b = (7213 / 10000) / (1 + (1079 / 1000) / b) := by
  simp only [alpha, if_neg h16, if_neg h32, if_neg h64]

/-- The legal values of the two parameters (R6) are those that some `Params` stands for. -/
theorem exists_params_iff {bfM llB : Nat} :
    (∃ q : Params, q.bfM = bfM ∧ q.llB = llB) ↔ (bfM = 256 ∨ bfM = 65536) ∧ ∃ p ≤ 63, llB = 2 ^ p := by
  constructor
  · rintro ⟨⟨width, llP⟩, rfl, rfl⟩
    refine ⟨?_, llP, by omega, rfl⟩
    cases width with
    | w256 => exact .inl rfl
    | w65536 => exact .inr rfl
  · rintro ⟨rfl | rfl, p, hp, rfl⟩
    · exact ⟨{ width := .w256, llP := ⟨p, by omega⟩ }, rfl, rfl⟩
    · exact ⟨{ width := .w65536, llP := ⟨p, by omega⟩ }, rfl, rfl⟩

end Sys2Proof

namespace Sys2Proof.Machine

theorem widthOf?_bfM (q : Params) : widthOf? q.bfM = some q.width := by
  rw [widthOf?_eq_some, Params.bfM]
  cases q.width <;> simp

theorem log2Of?_llB (q : Params) : log2Of? q.llB = some q.llP := log2Of?_eq_some.2 rfl

/-- The two numbers determine the parameters, and no other pair names them. -/
theorem paramsOf?_eq_some {bfM llB : Nat} {q : Params} :
    paramsOf? bfM llB = some q ↔ q.bfM = bfM ∧ q.llB = llB := by
  constructor
  · intro h
    unfold paramsOf? at h
    split at h
    next w p hw hp =>
      cases h
      refine ⟨?_, (log2Of?_eq_some.1 hp).symm⟩
      obtain ⟨rfl, rfl⟩ | ⟨rfl, rfl⟩ := widthOf?_eq_some.1 hw <;> rfl
    next => cases h
  · rintro ⟨rfl, rfl⟩
    simp only [paramsOf?, widthOf?_bfM, log2Of?_llB]

theorem construct_params (q : Params) : construct q.bfM q.llB = .ok (State.resetOf q) := by
  rw [construct, paramsOf?_eq_some.2 ⟨rfl, rfl⟩]

theorem construct_eq_error {bfM llB : Nat} (h : ¬∃ q : Params, q.bfM = bfM ∧ q.llB = llB) :
    construct bfM llB = .error .configurationError := by
  have hnone : paramsOf? bfM llB = none :=
    Option.eq_none_iff_forall_ne_some.2 fun q hq => h ⟨q, paramsOf?_eq_some.1 hq⟩
  rw [construct, hnone]

/-- Settles O7: a legal pair is that of some `Params`, which `construct` finds; for any other pair it finds none. -/
theorem constructValidates : Obligations.ConstructValidates := by
  refine ⟨fun bfM llB hM hB => ?_, fun bfM llB hillegal => construct_eq_error (mt exists_params_iff.1 hillegal)⟩
  obtain ⟨q, rfl, rfl⟩ := exists_params_iff.2 ⟨hM, hB⟩
  exact ⟨q, rfl, rfl, construct_params q⟩

/-- Settles O8: the three special bucket counts by evaluation, every other one by R8's last arm, which gives the rule's
examples. -/
theorem biasConstant : Obligations.BiasConstant := by
  refine ⟨rfl, rfl, rfl, fun b => alpha_otherwise, ?_, ?_, ?_⟩
  all_goals
    rw [alpha_otherwise (by decide) (by decide) (by decide)]
    norm_num

end Sys2Proof.Machine
end

section
/-! PROOFS. What one edge can do, said once (`EdgeCase`), and from it the invariants of `10_state.md`: `CONFIG` never
changes (R25), the flags are sticky (R26), the arrays only grow until reset (R32). -/

namespace Sys2Proof

/-- The derived constants of the two legal widths (R6). -/
theorem Params.width_constants (p : Params) :
    (p.bfM = 256 ∧ p.bfW = 8 ∧ p.bfK = 2) ∨ (p.bfM = 65536 ∧ p.bfW = 16 ∧ p.bfK = 4) := by
  unfold Params.bfM Params.bfW Params.bfK
  cases p.width <;> decide

/-- The commands R143 is about: an I-form command whose operand is out of range. -/
def Instr.OutOfRange (p : Params) : Instr → Prop
  | .csrRd a => 2 ≤ a.toNat
  | .bfRdw q => p.bfM / 64 ≤ q.toNat
  | .llRdb j => p.llB ≤ j.toNat
  | _ => False

end Sys2Proof

namespace Sys2Proof.Machine

/-! ## What one edge can do -/

section Deliver
variable (e : Edge) (s : State)

/-- A delivery touches the response port alone (R61(b)). -/
theorem deliver_eq : deliver e s = { s with rsp := (deliver e s).rsp } := by
  obtain ⟨-, h⟩ | ⟨-, h⟩ := deliver_cases e s
  · rw [h]; rfl
  · rw [h]

@[simp] theorem deliver_params : (deliver e s).params = s.params := by rw [deliver_eq]
@[simp] theorem deliver_bv : (deliver e s).bv = s.bv := by rw [deliver_eq]
@[simp] theorem deliver_bk : (deliver e s).bk = s.bk := by rw [deliver_eq]
@[simp] theorem deliver_ill : (deliver e s).ill = s.ill := by rw [deliver_eq]
@[simp] theorem deliver_idx : (deliver e s).idx = s.idx := by rw [deliver_eq]
@[simp] theorem deliver_bvBit : (deliver e s).bvBit = s.bvBit := by rw [deliver_eq]; rfl
@[simp] theorem deliver_bkCounter : (deliver e s).bkCounter = s.bkCounter := by rw [deliver_eq]; rfl

end Deliver

/-- What happens at an edge `e` that leads from `s` to `t` (R61, R162): a reset; no acceptance; an accepted command; an
accepted word with a reserved opcode. -/
inductive EdgeCase (e : Edge) (s t : State) : Prop
  | reset (hrst : e.rst = true) (ht : t = s.resetEvent)
  | idle (hrst : e.rst = false) (hacc : e.accepted? = none) (ht : t = deliver e s)
  | command (w : CmdWord) (i : Instr) (hrst : e.rst = false) (hacc : e.accepted? = some w) (hdec : decode w = .ok i)
      (ht : exec i (deliver e s) = .next t)
  | illegal (w : CmdWord) (hrst : e.rst = false) (hacc : e.accepted? = some w) (hdec : ¬∃ i, decode w = .ok i)
      (ht : t = (deliver e s).raise .illegalCommand)

theorem edgeCase_of_atEdge {e : Edge} {s t : State} (h : atEdge e s = .next t) : EdgeCase e s t := by
  unfold atEdge at h
  split at h
  next hrst => cases h; exact .reset hrst rfl
  next hrst =>
    rw [Bool.not_eq_true] at hrst
    split at h
    next w hacc =>
      obtain ⟨i, hdec, hrun⟩ | ⟨hres, hrun⟩ := runWord_cases w (deliver e s) <;> rw [hrun] at h
      · exact .command w i hrst hacc hdec h
      · cases h
        exact .illegal w hrst hacc (by rw [decode_of_reserved hres]; exact nofun) rfl
    next hacc => cases h; exact .idle hrst hacc rfl

theorem edgeCase_of_step {s t : State} {e : Edge} {es : List Edge} (he : s.edges = e :: es) (h : step s = .next t) :
    EdgeCase e { s with edges := es } t := edgeCase_of_atEdge (step_of_edge he ▸ h)

/-- A reset has priority over everything else at its edge (R145, R162). -/
theorem EdgeCase.eq_resetEvent {e : Edge} {s t : State} (h : EdgeCase e s t) (hrst : e.rst = true) :
    t = s.resetEvent := by
  cases h with
  | reset _ ht => exact ht
  | idle h0 => simp [h0] at hrst
  | command _ _ h0 => simp [h0] at hrst
  | illegal _ h0 => simp [h0] at hrst

theorem effect_of_exec {i : Instr} {s t : State} (h : exec i s = .next t) : Effect i s t := by
  obtain ⟨u, hu, heff⟩ := exec_effect i s
  cases hu.symm.trans h
  exact heff

/-! ## CONFIG (R25) -/

/-- The three fields do not overlap, so `CONFIG` is their sum. -/
theorem toNat_configWord (p : Params) : (configWord p).toNat = p.llP.val * 2 ^ 8 + p.bfK * 2 ^ 5 + p.bfW := by
  have hP := p.llP.isLt
  have hwidth := p.width_constants
  have hW : p.bfW < 2 ^ 5 := by omega
  have hlow : p.bfK * 2 ^ 5 + p.bfW < 2 ^ 8 := by omega
  calc (configWord p).toNat
      = p.llP.val <<< 8 ||| (p.bfK <<< 5 ||| p.bfW) := by
        simp only [configWord, BitVec.toNat_or, BitVec.toNat_shiftLeft, BitVec.toNat_ofNat, Nat.shiftLeft_eq, Nat.or_assoc]
        congr 1
        · omega
        · congr 1 <;> omega
    _ = p.llP.val * 2 ^ 8 + p.bfK * 2 ^ 5 + p.bfW := by
        rw [← Nat.shiftLeft_add_eq_or_of_lt hW, Nat.shiftLeft_eq p.bfK, ← Nat.shiftLeft_add_eq_or_of_lt hlow,
          Nat.shiftLeft_eq, Nat.add_assoc]

/-- A field of `CONFIG`, by the number it holds. -/
theorem extractLsb'_configWord {p : Params} {lo len n : Nat}
    (h : (p.llP.val * 2 ^ 8 + p.bfK * 2 ^ 5 + p.bfW) / 2 ^ lo % 2 ^ len = n % 2 ^ len) :
    (configWord p).extractLsb' lo len = BitVec.ofNat len n := by
  apply BitVec.eq_of_toNat_eq
  rw [BitVec.extractLsb'_toNat, toNat_configWord, Nat.shiftRight_eq_div_pow, BitVec.toNat_ofNat, h]

/-- No edge changes the parameters, a reset edge included. -/
theorem EdgeCase.params_eq {e : Edge} {s t : State} (h : EdgeCase e s t) : t.params = s.params := by
  cases h with
  | reset hrst ht => rw [ht, State.resetEvent_params]
  | idle hrst hacc ht => rw [ht, deliver_params]
  | command w i hrst hacc hdec ht => rw [(effect_of_exec ht).params, deliver_params]
  | illegal w hrst hacc hdec ht => rw [ht, State.raise_illegalCommand_params, deliver_params]

theorem step_params {s t : State} (h : step s = .next t) : t.params = s.params := by
  cases he : s.edges with
  | nil => rw [step_of_no_edges he] at h; cases h; rfl
  | cons e es => exact (edgeCase_of_step he h).params_eq

/-- Settles O9: `CONFIG` is the sum of its fields, from which each field is read off, and no edge changes the
parameters. -/
theorem configRegister : Obligations.ConfigRegister := by
  refine ⟨fun p => ?_, fun s t => step_params, by decide, by decide, by decide, by decide⟩
  have hP := p.llP.isLt
  have hwidth := p.width_constants
  refine ⟨extractLsb'_configWord ?_, extractLsb'_configWord ?_, extractLsb'_configWord ?_, extractLsb'_configWord ?_,
    hwidth, rfl⟩ <;> omega

/-! ## STATUS (R26) -/

theorem getLsbD_statusWord (s : State) (i : Nat) :
    (statusWord s).getLsbD i = ((decide (i = 0) && s.ill) || (decide (i = 1) && s.idx)) := by
  have h1 : (1#64).getLsbD i = decide (i = 0) := by simp [BitVec.getLsbD_one]
  have h2 : (2#64).getLsbD i = decide (i = 1) := by
    rw [show 2#64 = BitVec.twoPow 64 1 from rfl, BitVec.getLsbD_twoPow]
    simp [eq_comm]
  rw [statusWord, BitVec.getLsbD_or]
  congr 1
  · cases s.ill <;> simp [h1]
  · cases s.idx <;> simp [h2]

theorem State.csr?_eq_none {s : State} {a : Word} : s.csr? a = none ↔ 2 ≤ a.toNat := by
  have hrange : 2 ≤ a.toNat ↔ a ≠ 0#64 ∧ a ≠ 1#64 := by bv_omega
  rw [csr?, hrange]
  split_ifs <;> simp [*]

theorem State.bvWordAt?_eq_none {s : State} {q : Word} : s.bvWordAt? q = none ↔ s.params.bfM / 64 ≤ q.toNat := by
  change _ ↔ s.params.bvWords ≤ q.toNat
  simp [bvWordAt?]

theorem State.bkAt?_eq_none {s : State} {j : Word} : s.bkAt? j = none ↔ s.params.llB ≤ j.toNat := by
  simp [bkAt?]

theorem State.respondIndexed_idx (s : State) (element : Option Word) :
    (s.respondIndexed element).idx = true ↔ s.idx = true ∨ element = none := by
  cases element <;> simp

/-- A command sets `IDX` exactly when its operand is out of range (R143). -/
theorem exec_idx_iff {i : Instr} {s t : State} (h : exec i s = .next t) :
    t.idx = true ↔ s.idx = true ∨ i.OutOfRange s.params := by
  cases i with
  | csrRd a => cases h; rw [State.respondIndexed_idx, State.csr?_eq_none, Instr.OutOfRange]
  | bfRdw q => cases h; rw [State.respondIndexed_idx, State.bvWordAt?_eq_none, Instr.OutOfRange]
  | llRdb j => cases h; rw [State.respondIndexed_idx, State.bkAt?_eq_none, Instr.OutOfRange]
  | _ => cases h; simp [Instr.OutOfRange]

/-- The three I-form commands are the ones that can be out of range (R62). -/
theorem exists_outOfRange_iff {p : Params} {w : CmdWord} :
    (∃ i, decode w = .ok i ∧ i.OutOfRange p) ↔
      (∃ a, decode w = .ok (.csrRd a) ∧ 2 ≤ a.toNat) ∨ (∃ q, decode w = .ok (.bfRdw q) ∧ p.bfM / 64 ≤ q.toNat) ∨
        ∃ j, decode w = .ok (.llRdb j) ∧ p.llB ≤ j.toNat := by
  constructor
  · rintro ⟨i, hdec, hi⟩
    cases i with
    | csrRd a => exact .inl ⟨a, hdec, hi⟩
    | bfRdw q => exact .inr (.inl ⟨q, hdec, hi⟩)
    | llRdb j => exact .inr (.inr ⟨j, hdec, hi⟩)
    | _ => exact hi.elim
  · rintro (⟨a, hdec, ha⟩ | ⟨q, hdec, hq⟩ | ⟨j, hdec, hj⟩)
    · exact ⟨_, hdec, ha⟩
    · exact ⟨_, hdec, hq⟩
    · exact ⟨_, hdec, hj⟩

/-- `ILL` after an edge without reset (R142). -/
theorem EdgeCase.ill_iff {e : Edge} {s t : State} (h : EdgeCase e s t) (hrst : e.rst = false) :
    t.ill = true ↔ s.ill = true ∨ ∃ w, e.accepted? = some w ∧ ¬∃ i, decode w = .ok i := by
  cases h with
  | reset h1 => simp [h1] at hrst
  | idle _ hacc ht => simp [ht, hacc]
  | command w i _ hacc hdec ht => simp [(effect_of_exec ht).ill, hacc, hdec]
  | illegal w _ hacc hdec ht => exact iff_of_true (by rw [ht, State.raise_illegalCommand_ill]) (.inr ⟨w, hacc, hdec⟩)

/-- `IDX` after an edge without reset (R143). -/
theorem EdgeCase.idx_iff {e : Edge} {s t : State} (h : EdgeCase e s t) (hrst : e.rst = false) :
    t.idx = true ↔
      s.idx = true ∨ ∃ w, e.accepted? = some w ∧ ∃ i, decode w = .ok i ∧ i.OutOfRange s.params := by
  cases h with
  | reset h1 => simp [h1] at hrst
  | idle _ hacc ht => simp [ht, hacc]
  | command w i _ hacc hdec ht => simp [exec_idx_iff ht, hacc, hdec]
  | illegal w _ hacc hdec ht =>
    have hno : ∀ i, decode w ≠ .ok i := fun i hi => hdec ⟨i, hi⟩
    simp [ht, hacc, hno]

/-! ## Who sees the flags (R26) -/

/-- The state with its two flags replaced. -/
def State.withFlags (s : State) (x y : Bool) : State := { s with ill := x, idx := y }

theorem State.setBvBits_withFlags (is : List Nat) (s : State) (x y : Bool) :
    (s.withFlags x y).setBvBits is = (s.setBvBits is).withFlags x y := by
  induction is generalizing s with
  | nil => rfl
  | cons i is ih => exact ih (s.setBvBit i)

theorem State.respondIndexed_withFlags (s : State) (x y : Bool) (element : Option Word) :
    ∃ y', (s.withFlags x y).respondIndexed element = (s.respondIndexed element).withFlags x y' := by
  cases element with
  | some v => exact ⟨y, rfl⟩
  | none => exact ⟨true, rfl⟩

/-- But for `CSR.RD`, a command run with other flags does the same, up to the flags themselves. -/
theorem exec_withFlags {i : Instr} {s t : State} (hi : ∀ a, i ≠ .csrRd a) (h : exec i s = .next t) (x y : Bool) :
    ∃ y', exec i (s.withFlags x y) = .next (t.withFlags x y') := by
  cases i with
  | csrRd a => exact absurd rfl (hi a)
  | bfObs hash =>
    cases h
    exact ⟨y, congrArg (fun u : State => Host.Outcome.next (u.respond .ok 0#64))
      (State.setBvBits_withFlags _ s x y)⟩
  | bfRdw q =>
    cases h
    obtain ⟨y', hy⟩ := State.respondIndexed_withFlags s x y (s.bvWordAt? q)
    exact ⟨y', congrArg _ hy⟩
  | llRdb j =>
    cases h
    obtain ⟨y', hy⟩ := State.respondIndexed_withFlags s x y (s.bkAt? j)
    exact ⟨y', congrArg _ hy⟩
  | _ => cases h; exact ⟨y, rfl⟩

/-- Settles O10: the bits of `STATUS`; the flags after each kind of edge; and every command but `CSR.RD` commutes with a
change of the flags. -/
theorem statusFlagsAreSticky : Obligations.StatusFlagsAreSticky := by
  refine ⟨fun s => ⟨?_, ?_, fun i hi => ?_⟩, fun s t e es he h => ⟨fun hrst => ?_, fun hrst => ⟨?_, ?_⟩⟩,
    fun s => rfl, fun i s t x y hi h => ?_⟩
  · rw [getLsbD_statusWord]; simp
  · rw [getLsbD_statusWord]; simp
  · simp [getLsbD_statusWord, show i ≠ 0 by omega, show i ≠ 1 by omega]
  · rw [(edgeCase_of_step he h).eq_resetEvent hrst]
    exact ⟨rfl, rfl⟩
  · exact (edgeCase_of_step he h).ill_iff hrst
  · simp only [← exists_outOfRange_iff]
    exact (edgeCase_of_step he h).idx_iff hrst
  · obtain ⟨y', hu⟩ := exec_withFlags hi h x y
    exact ⟨_, hu, rfl, rfl, rfl⟩

/-! ## The arrays only grow (R32) -/

/-- No bit is cleared and no counter falls. -/
structure Grows (s t : State) : Prop where
  bits : ∀ i, s.bvBit i = true → t.bvBit i = true
  counters : ∀ j, (s.bkCounter j).toNat ≤ (t.bkCounter j).toNat

theorem Grows.trans {s t u : State} (h : Grows s t) (h' : Grows t u) : Grows s u :=
  ⟨fun i hi => h'.bits i (h.bits i hi), fun j => (h.counters j).trans (h'.counters j)⟩

theorem Grows.of_eq {s t : State} (hbits : t.bvBit = s.bvBit) (hcounters : t.bkCounter = s.bkCounter) : Grows s t :=
  ⟨fun i h => by rw [hbits, h], fun j => by rw [hcounters]⟩

theorem State.bvBit_congr {s t : State} (h : s.bv = t.bv) : s.bvBit = t.bvBit := by
  funext i
  rw [bvBit, bvBit, bvWord, bvWord, h]

theorem State.bkCounter_congr {s t : State} (h : s.bk = t.bk) : s.bkCounter = t.bkCounter := by
  funext j
  rw [bkCounter, bkCounter, h]

theorem State.bkCounter_le_raiseBk {s : State} {bound : Nat} (h : s.bk.wf bound = true) {j k : Nat} (hk : k ≤ 64)
    (i : Nat) : (s.bkCounter i).toNat ≤ ((s.raiseBk j k).bkCounter i).toNat := by
  rw [bkCounter_raiseBk h hk]
  split
  next hij => rw [hij]; exact le_max_left ..
  next => exact le_rfl

/-- A command only sets bits (R93), and only raises a counter (R102). -/
theorem Effect.grows {i : Instr} {s t : State} (h : Effect i s t) {bound : Nat} (hbk : s.bk.wf bound = true) :
    Grows s t where
  bits n hn := by
    obtain hbv | ⟨hash, -, hbv⟩ := h.bv
    · rwa [State.bvBit_congr hbv]
    · rw [State.bvBit_congr hbv, State.bvBit_setBvBits, hn, Bool.true_or]
  counters n := by
    obtain heq | ⟨hash, -, heq⟩ := h.bk
    · rw [State.bkCounter_congr heq]
    · rw [State.bkCounter_congr heq]
      exact State.bkCounter_le_raiseBk hbk ((rank_le s.params hash).trans (Nat.sub_le ..)) n

theorem EdgeCase.grows {e : Edge} {s t : State} (h : EdgeCase e s t) (hrst : e.rst = false) {bound : Nat}
    (hbk : s.bk.wf bound = true) : Grows s t := by
  have hdeliver : Grows s (deliver e s) := .of_eq (deliver_bvBit e s) (deliver_bkCounter e s)
  cases h with
  | reset h1 => simp [h1] at hrst
  | idle _ _ ht => rwa [ht]
  | command w i _ _ _ ht => exact hdeliver.trans ((effect_of_exec ht).grows (bound := bound) (by rwa [deliver_bk]))
  | illegal w _ _ _ ht => rw [ht]; exact hdeliver.trans (.of_eq (State.raise_bvBit ..) (State.raise_bkCounter ..))

/-- Settles O21: a delivery, a command and an exception each only let the arrays grow, and a reset edge leaves the reset
state's empty arrays. -/
theorem stateOnlyGrowsUntilReset : Obligations.StateOnlyGrowsUntilReset := by
  intro s t e es hinv he h
  have hedge := edgeCase_of_step he h
  refine ⟨fun hrst => ?_, fun hrst => ?_⟩
  · have hgrow := hedge.grows hrst hinv.bkForm
    exact ⟨hgrow.bits, hgrow.counters⟩
  · rw [hedge.eq_resetEvent hrst]
    exact ⟨State.bvBit_resetOf s.params, State.bkCounter_resetOf s.params⟩

end Sys2Proof.Machine
end

section
/-! PROOFS. The two readings of `BV` (R41): a bit's index names its word and its place in the word, and a word and a place
name the index. -/

namespace Sys2Proof.Machine

/-- Bit i is bit `i & 63` of word `i >> 6` (R41): the shift is the quotient by 64, the mask the remainder. -/
theorem State.bvBit_eq_getLsbD (s : State) (i : Nat) : s.bvBit i = (s.bvWord (i >>> 6)).getLsbD (i &&& 63) := by
  have hword : i >>> 6 = i / 64 := Nat.shiftRight_eq_div_pow i 6
  have hplace : i &&& 63 = i % 64 := Nat.and_two_pow_sub_one_eq_mod i 6
  rw [hword, hplace, bvBit]

/-- Settles O32: the first reading by `State.bvBit_eq_getLsbD`, the second by `State.getLsbD_bvWord`; the rule's examples
are the first at bits 52 and 200. -/
theorem bitVectorLayout : Obligations.BitVectorLayout := fun s =>
  ⟨s.bvBit_eq_getLsbD, s.getLsbD_bvWord, s.bvBit_eq_getLsbD 52, s.bvBit_eq_getLsbD 200⟩

end Sys2Proof.Machine
end

section
/-! PROOFS. The encoding: the assigned opcodes and the reserved ones (R65), the operand bits that have no effect (R66), and
the fields of a response word (R63). -/

namespace Sys2Proof

/-! ## The opcode map (R64, R65) -/

/-- The reserved codes are those of no row of the opcode map. -/
theorem Opcode.ofCode?_eq_none {c : OpField} : Opcode.ofCode? c = none ↔ c ∉ Opcode.all.map Opcode.code := by
  simp [Opcode.ofCode?]

/-- A word decodes exactly when its opcode is that of some row. -/
theorem exists_decode_iff {w : CmdWord} : (∃ i, decode w = .ok i) ↔ cmdOpField w ∈ Opcode.all.map Opcode.code := by
  cases h : Opcode.ofCode? (cmdOpField w) with
  | some o =>
    have hmem := List.mem_map_of_mem (f := Opcode.code) o.mem_all
    rw [Opcode.code_of_ofCode? h] at hmem
    exact iff_of_true ⟨_, decode_of_ofCode? h⟩ hmem
  | none =>
    refine iff_of_false ?_ (Opcode.ofCode?_eq_none.1 h)
    rw [decode_of_reserved h]
    exact nofun

theorem decode_of_not_exists {w : CmdWord} (h : ¬∃ i, decode w = .ok i) :
    decode w = .error (.reservedOpcode (cmdOpField w)) :=
  decode_of_reserved (Opcode.ofCode?_eq_none.2 (mt exists_decode_iff.2 h))

/-- A word put together from a row's code and any `data` is that row's command. -/
theorem decode_cmdWordOf_code (o : Opcode) (data : Word) : decode (cmdWordOf o.code data) = .ok (o.command data) := by
  rw [decode_of_ofCode? (o := o) (by simp), cmdDataField_cmdWordOf]

/-! ## The N-form (R66) -/

/-- The codes of the three N-form rows. -/
theorem exists_unused_of_code_mem {op : OpField} (h : op ∈ [0x21#8, 0x22#8, 0x23#8]) :
    ∃ o : Opcode, o.form = .unused ∧ o.code = op := by
  simp only [List.mem_cons, List.not_mem_nil, or_false] at h
  obtain rfl | rfl | rfl := h
  · exact ⟨.llEst, rfl, rfl⟩
  · exact ⟨.llSest, rfl, rfl⟩
  · exact ⟨.llHest, rfl, rfl⟩

theorem Opcode.command_of_unused {o : Opcode} (h : o.form = .unused) (data data' : Word) :
    o.command data = o.command data' := by
  cases o with
  | llEst | llSest | llHest => rfl
  | _ => cases h

theorem Instr.data_of_unused {i : Instr} (h : i.opcode.form = .unused) : i.data = 0#64 := by
  cases i with
  | llEst | llSest | llHest => rfl
  | _ => cases h

end Sys2Proof

namespace Sys2Proof.Machine

theorem runWord_of_not_exists {w : CmdWord} (h : ¬∃ i, decode w = .ok i) (s : State) :
    runWord w s = .next (s.raise .illegalCommand) := by
  obtain ⟨i, hi, -⟩ | ⟨-, hrun⟩ := runWord_cases w s
  · exact absurd ⟨i, hi⟩ h
  · exact hrun

/-- Settles O4: the twelve opcodes are the codes of the opcode map's rows, the reserved ones are counted, and a word that
does not decode is rejected by its opcode and runs as `IllegalCommand`. -/
theorem exactlyTwelveOpcodesDecode : Obligations.ExactlyTwelveOpcodesDecode := by
  refine ⟨fun w => exists_decode_iff, fun w => decode_of_not_exists, by decide +kernel, fun data op hop => ?_,
    fun w s hw => ?_⟩
  · have hreserved : ∀ c ∈ [0x00#8, 0xFF#8], Opcode.ofCode? c = none := by decide
    have hnone : Opcode.ofCode? (cmdOpField (cmdWordOf op data)) = none := by
      rw [cmdOpField_cmdWordOf, hreserved op hop]
    rw [decode_of_reserved hnone, cmdOpField_cmdWordOf]
  · exact runWord_of_not_exists (by rw [hw]; exact nofun) s

/-! ## The discarded bits of an H-form operand (R66, R92) -/

/-- A sub-hash that lies in the field of `n` bits from bit `lo` reads that field alone. -/
theorem subHash_congr {w lo n j : Nat} {h h' : Word} (hh : h.extractLsb' lo n = h'.extractLsb' lo n)
    (hlo : lo ≤ 64 - (j + 1) * w) (hn : 64 - (j + 1) * w + w ≤ lo + n) : subHash w h j = subHash w h' j := by
  refine congrArg BitVec.toNat (BitVec.eq_of_getLsbD_eq fun i hi => ?_)
  have hbit := congrArg (fun f : BitVec n => f.getLsbD (64 - (j + 1) * w - lo + i)) hh
  have hin : 64 - (j + 1) * w - lo + i < n := by omega
  have hpos : lo + (64 - (j + 1) * w - lo + i) = 64 - (j + 1) * w + i := by omega
  simpa only [BitVec.getLsbD_extractLsb', hin, hi, hpos, decide_true, Bool.true_and] using hbit

/-- With `BF_M` = 256 the two slices stand in the top 16 bits of the hash. -/
theorem subHashes_congr_of_w256 {p : Params} (hp : p.width = .w256) {h h' : Word}
    (hh : h.extractLsb' 48 16 = h'.extractLsb' 48 16) : subHashes p h = subHashes p h' := by
  have hW : p.bfW = 8 := by rw [Params.bfW, hp]
  have hK : p.bfK = 2 := by rw [Params.bfK, hp]
  rw [subHashes, subHashes, hW, hK]
  refine List.map_congr_left fun j hj => ?_
  have hj2 : j < 2 := List.mem_range.1 hj
  exact subHash_congr hh (by omega) (by omega)

/-- The two Bloom filter commands read the hash through its sub-hashes alone. -/
theorem exec_bfObs_bfChk_congr {s : State} {h h' : Word} (hsub : subHashes s.params h = subHashes s.params h') :
    exec (.bfObs h) s = exec (.bfObs h') s ∧ exec (.bfChk h) s = exec (.bfChk h') s := by
  simp only [exec, execBfObs, execBfChk, hsub, and_self]

/-! ## An I-form operand out of range (R66, R143) -/

theorem exec_of_outOfRange {i : Instr} {s : State} (h : i.OutOfRange s.params) : exec i s = .next (s.raise .badIndex) := by
  cases i with
  | csrRd a => rw [exec, execCsrRd, State.csr?_eq_none.2 h, State.respondIndexed_none]
  | bfRdw q => rw [exec, execBfRdw, State.bvWordAt?_eq_none.2 h, State.respondIndexed_none]
  | llRdb j => rw [exec, execLlRdb, State.bkAt?_eq_none.2 h, State.respondIndexed_none]
  | _ => exact h.elim

/-- No configuration has 2^63 words of `BV`, more than 2^63 counters or 2^63 control registers. -/
theorem outOfRange_of_two_pow_63_le (p : Params) {a : Word} (ha : 2 ^ 63 ≤ a.toNat) :
    Instr.OutOfRange p (.bfRdw a) ∧ Instr.OutOfRange p (.llRdb a) ∧ Instr.OutOfRange p (.csrRd a) := by
  have hM := p.width_constants
  have hB := p.llB_le
  simp only [Instr.OutOfRange]
  omega

/-- Settles O5: an N-form row ignores its `data`; the two slices of a 256-bit filter stand in the top 16 bits; 2^63 is
beyond every range. -/
theorem unusedOperandBits : Obligations.UnusedOperandBits := by
  refine ⟨fun data data' op hop => ?_, fun i hi => ?_, fun s h h' hp hh => ?_, fun s a ha => ?_⟩
  · obtain ⟨o, hform, rfl⟩ := exists_unused_of_code_mem hop
    rw [decode_cmdWordOf_code, decode_cmdWordOf_code, Opcode.command_of_unused hform data data']
    exact ⟨rfl, _, rfl⟩
  · rw [encode, cmdDataField_cmdWordOf, Instr.data_of_unused hi]
  · exact exec_bfObs_bfChk_congr (subHashes_congr_of_w256 hp hh)
  · obtain ⟨hq, hj, hcsr⟩ := outOfRange_of_two_pow_63_le s.params ha
    exact ⟨exec_of_outOfRange hq, exec_of_outOfRange hj, exec_of_outOfRange hcsr⟩

/-! ## The response word (R63) -/

theorem RspStatus.code_ne_three (st : RspStatus) : st.code ≠ 3#2 := by cases st <;> decide

theorem RspStatus.ne_ok_of_code {st : RspStatus} (h : st.code = 1#2 ∨ st.code = 2#2) : st ≠ .ok := by
  rintro rfl
  exact absurd h (by decide)

/-- Settles O6: the word is `{status, data}`, and data 0 with an error is the invariant's `errorData`. -/
theorem responseWordFields : Obligations.ResponseWordFields :=
  ⟨rfl, rfl, rfl,
    fun r => ⟨BitVec.extractLsb'_append_eq_left, BitVec.extractLsb'_append_eq_right, r.status.code_ne_three⟩,
    fun _ hinv r hr hcode => hinv.errorData r hr (RspStatus.ne_ok_of_code hcode)⟩

end Sys2Proof.Machine
end

section
/-! PROOFS. The bit-run analyzer: the three functions of R83 are what their definitions say, and its three commands answer
them (R80 to R82). -/

namespace Sys2Proof.Machine

/-! ## The three functions (R83) -/

theorem popcnt_eq_card (x : Word) : popcnt x = (Finset.univ.filter fun i : Fin 64 => x.getLsbD i.val = true).card := by
  calc popcnt x
      = (List.finRange 64).countP fun i => x.getLsbD i.val := by
        rw [popcnt, ← List.map_coe_finRange_eq_range, List.countP_map]; rfl
    _ = (Finset.univ.filter fun i : Fin 64 => x.getLsbD i.val = true).card := by
        simp [Finset.card, Finset.filter_val, Finset.val_univ_fin, List.countP_eq_length_filter]

/-- No run of 1-bits from bit 0 is longer than `cto x`: the bit at `cto x` is 0. -/
theorem le_cto {x : Word} {n : Nat} (hn : n ≤ 64) (hrun : ∀ i < n, x.getLsbD i = true) : n ≤ cto x := by
  by_contra! hlt
  exact Bool.false_ne_true ((cto_end (by omega)).symm.trans (hrun _ hlt))

/-- No run of 0-bits from bit 0 is longer than `ctz x`: the bit at `ctz x` is 1. -/
theorem le_ctz {x : Word} {n : Nat} (hn : n ≤ 64) (hrun : ∀ i < n, x.getLsbD i = false) : n ≤ ctz x := by
  by_contra! hlt
  exact Bool.false_ne_true ((hrun _ hlt).symm.trans (ctz_end (by omega)))

/-- Settles O46: each run holds below its length and ends there, and goest's five values are evaluated. -/
theorem bitRunFunctions : Obligations.BitRunFunctions := by
  refine ⟨popcnt_eq_card, fun x => ⟨cto_le x, fun _ => cto_run, fun _ => le_cto⟩,
    fun x => ⟨ctz_le x, fun _ => ctz_run, fun _ => le_ctz⟩, ?_⟩
  decide

/-! ## The three commands (R80 to R82) -/

/-- A count of R83 fits in the 64 bits of a result. -/
theorem toNat_ofNat_of_le_64 {n : Nat} (h : n ≤ 64) : (BitVec.ofNat 64 n).toNat = n := by
  rw [BitVec.toNat_ofNat, Nat.mod_eq_of_lt (by omega)]

/-- Settles O48: each command ends in `respond(OK, …)` with its count, which fits in the response's `data`. -/
theorem bitRunCommands : Obligations.BitRunCommands := fun x _ =>
  ⟨rfl, rfl, rfl, ⟨_, toNat_ofNat_of_le_64 (popcnt_le x), rfl⟩, ⟨_, toNat_ofNat_of_le_64 (cto_le x), rfl⟩,
    ⟨_, toNat_ofNat_of_le_64 (ctz_le x), rfl⟩⟩

end Sys2Proof.Machine
end

section
/-! PROOFS. BFC, the Bloom filter commands: the slices of a hash (R90 to R92), what `BF.OBS` and `BF.RDW` do (R93, R95), and
the filter's properties over commands and runs (R97). -/

namespace Sys2Proof

theorem Params.bfK_pos (p : Params) : 0 < p.bfK := by
  have := p.width_constants
  omega

/-- The k slices of w bits fit in the hash (R92). -/
theorem Params.bfK_mul_bfW_le (p : Params) : p.bfK * p.bfW ≤ 64 := by
  obtain ⟨-, hW, hK⟩ | ⟨-, hW, hK⟩ := p.width_constants
  · rw [hW, hK]; decide
  · rw [hW, hK]

end Sys2Proof

namespace Sys2Proof.Machine

/-! ## The slices (R90 to R92) -/

theorem subHashes_of_w256 {p : Params} (hp : p.width = .w256) (h : Word) :
    subHashes p h = [(h.extractLsb' 56 8).toNat, (h.extractLsb' 48 8).toNat] := by
  rw [subHashes, Params.bfK, Params.bfW, hp]
  rfl

theorem subHashes_of_w65536 {p : Params} (hp : p.width = .w65536) (h : Word) :
    subHashes p h = [(h.extractLsb' 48 16).toNat, (h.extractLsb' 32 16).toNat, (h.extractLsb' 16 16).toNat,
      (h.extractLsb' 0 16).toNat] := by
  rw [subHashes, Params.bfK, Params.bfW, hp]
  rfl

/-- The rules' example hash in a 256-bit filter (R90, R93). -/
theorem subHashes_example_of_w256 {p : Params} (hp : p.width = .w256) :
    subHashes p 0x123456789ABCDEF0#64 = [18, 52] := by
  rw [subHashes_of_w256 hp]
  rfl

/-- Settles O27: the list of slices for each width; the two slices of a 256-bit filter stand in the top 16 bits of the
hash; the examples are the lists at one hash. -/
theorem subHashSlices : Obligations.SubHashSlices :=
  ⟨fun _ h hp => subHashes_of_w256 hp h, fun _ _ _ hp => subHashes_congr_of_w256 hp,
    fun _ h hp => subHashes_of_w65536 hp h, fun _ => subHashes_example_of_w256,
    fun _ hp => (subHashes_of_w65536 hp _).trans rfl⟩

/-- R92's slice is a quotient by a power of two, and of that the remainder by 2^w. -/
theorem subHash_eq (w : Nat) (h : Word) (j : Nat) : subHash w h j = h.toNat / 2 ^ (64 - (j + 1) * w) % 2 ^ w := by
  rw [subHash, BitVec.extractLsb'_toNat, Nat.shiftRight_eq_div_pow]

/-- Settles O28: slice j is `subHash` at j, by `subHash_eq`, and a member of the slices, so a valid bit index. -/
theorem generalSlicing : Obligations.GeneralSlicing := by
  intro p h
  refine ⟨p.bfK_mul_bfW_le, p.two_pow_bfW, subHashes_length p h, fun j hj => ⟨?_, subHashes_lt (List.getElem_mem hj)⟩⟩
  simp only [subHashes, List.getElem_map, List.getElem_range, subHash_eq]

theorem subHash_zero (w j : Nat) : subHash w 0#64 j = 0 := by simp [subHash_eq]

/-- A slice that lies in a hash of ones is all ones. -/
theorem subHash_allOnes {w j : Nat} (h : (j + 1) * w ≤ 64) : subHash w (BitVec.allOnes 64) j = 2 ^ w - 1 := by
  have hslice : (BitVec.allOnes 64).extractLsb' (64 - (j + 1) * w) w = BitVec.allOnes w := by
    refine BitVec.eq_of_getLsbD_eq fun i hi => ?_
    have hw : w ≤ (j + 1) * w := Nat.le_mul_of_pos_left w j.succ_pos
    have hin : 64 - (j + 1) * w + i < 64 := by omega
    rw [BitVec.getLsbD_extractLsb', BitVec.getLsbD_allOnes, BitVec.getLsbD_allOnes, decide_eq_true hin, Bool.and_true]
  rw [subHash, hslice, BitVec.toNat_allOnes]

/-- A hash with k equal slices selects one bit. -/
theorem mem_subHashes_iff_of_const {p : Params} {h : Word} {n : Nat} (hn : ∀ j < p.bfK, subHash p.bfW h j = n) (i : Nat) :
    i ∈ subHashes p h ↔ i = n := by
  rw [subHashes, List.mem_map]
  constructor
  · rintro ⟨j, hj, rfl⟩
    exact hn j (List.mem_range.1 hj)
  · rintro rfl
    exact ⟨0, List.mem_range.2 p.bfK_pos, hn 0 p.bfK_pos⟩

theorem mem_subHashes_zero (p : Params) (i : Nat) : i ∈ subHashes p 0#64 ↔ i = 0 :=
  mem_subHashes_iff_of_const (fun j _ => subHash_zero p.bfW j) i

theorem mem_subHashes_allOnes (p : Params) (i : Nat) : i ∈ subHashes p (BitVec.allOnes 64) ↔ i = p.bfM - 1 := by
  refine mem_subHashes_iff_of_const (fun j hj => ?_) i
  rw [subHash_allOnes ((Nat.mul_le_mul_right p.bfW hj).trans p.bfK_mul_bfW_le), p.two_pow_bfW]

/-! ## BF.OBS (R93) -/

/-- `BF.OBS` writes `BV` and its response, and nothing else. -/
theorem exec_bfObs_eq (h : Word) (s : State) : exec (.bfObs h) s =
    .next { s with bv := (s.setBvBits (subHashes s.params h)).bv, rsp := s.rsp ++ [{ status := .ok, data := 0#64 }] } := by
  rw [exec, execBfObs, State.setBvBits_eq]
  rfl

theorem bvBit_of_exec_bfObs {h : Word} {s t : State} (ht : exec (.bfObs h) s = .next t) (i : Nat) :
    t.bvBit i = (s.bvBit i || decide (i ∈ subHashes s.params h)) := by
  cases ht
  rw [State.respond_bvBit, State.bvBit_setBvBits]

/-- Two canonical bit vectors with the same bits are the same data. -/
theorem State.bv_eq_of_bvBit_eq {s t : State} {bound : Nat} (hs : s.bv.wf bound = true) (ht : t.bv.wf bound = true)
    (h : ∀ i, s.bvBit i = t.bvBit i) : s.bv = t.bv := by
  refine Cells.eq_of_read_eq _ _ hs ht fun q => BitVec.eq_of_getLsbD_eq fun b hb => ?_
  exact (s.getLsbD_bvWord q b hb).trans ((h _).trans (t.getLsbD_bvWord q b hb).symm)

/-- Setting again bits that are set leaves the bit vector as it is. -/
theorem State.Inv.setBvBits_bv_of_set {s : State} (hinv : s.Inv) {is : List Nat} (hlt : ∀ i ∈ is, i < s.params.bfM)
    (hset : ∀ i ∈ is, s.bvBit i = true) : (s.setBvBits is).bv = s.bv := by
  have hform := (hinv.setBvBits hlt).bvForm
  rw [State.setBvBits_params] at hform
  refine State.bv_eq_of_bvBit_eq hform hinv.bvForm fun i => ?_
  rw [State.bvBit_setBvBits]
  by_cases hi : i ∈ is
  · simp [hset i hi]
  · simp [hi]

/-- Observing a hash again changes no bit: the second observation finds its bits set. -/
theorem State.Inv.setBvBits_subHashes_again {s : State} (hinv : s.Inv) (h : Word) :
    ((s.setBvBits (subHashes s.params h)).setBvBits (subHashes s.params h)).bv =
      (s.setBvBits (subHashes s.params h)).bv := by
  have hlt : ∀ i ∈ subHashes s.params h, i < s.params.bfM := fun _ => subHashes_lt
  refine (hinv.setBvBits hlt).setBvBits_bv_of_set (by rwa [State.setBvBits_params]) fun i hi => ?_
  rw [State.bvBit_setBvBits, decide_eq_true hi, Bool.or_true]

/-- A word holds the bits of its 64 indices (R41). -/
theorem State.bvWord_eq_of_bits {s : State} {q : Nat} {v : Word} (h : ∀ b < 64, s.bvBit (64 * q + b) = v.getLsbD b) :
    s.bvWord q = v :=
  BitVec.eq_of_getLsbD_eq fun b hb => (s.getLsbD_bvWord q b hb).trans (h b hb)

/-- Settles O29: the frame by `exec_bfObs_eq`, the bits by `State.bvBit_setBvBits`, a second observation by the canonical
form of `BV`; the corner cases and the example are the slices of three hashes. -/
theorem bfObsSetsSelectedBits : Obligations.BfObsSetsSelectedBits := by
  refine ⟨fun h => rfl, fun h s => ⟨_, exec_bfObs_eq h s, State.bvBit_setBvBits _ s, fun hinv t ht => ?_⟩,
    fun p => ⟨mem_subHashes_zero p, mem_subHashes_allOnes p⟩, fun s t hp hempty ht => ?_⟩
  · rw [← State.setBvBits_eq, exec_bfObs_eq, State.setBvBits_params] at ht
    cases ht
    exact hinv.setBvBits_subHashes_again h
  · refine State.bvWord_eq_of_bits fun b hb => ?_
    rw [bvBit_of_exec_bfObs ht, hempty, subHashes_example_of_w256 hp]
    revert b
    decide

/-! ## BF.RDW (R95) -/

theorem State.bvWordAt?_eq_some {s : State} {q : Word} (h : q.toNat < s.params.bfM / 64) :
    s.bvWordAt? q = some (s.bvWord q.toNat) := if_pos h

/-- Settles O31: in range the response is the word of `BV`, whose bits are `State.getLsbD_bvWord`'s; out of range
`BadIndex`. -/
theorem bfRdwReadsWord : Obligations.BfRdwReadsWord := by
  refine ⟨fun q => rfl, fun q s hq => ⟨s.bvWord q.toNat, ?_, s.getLsbD_bvWord q.toNat⟩,
    fun q s hq => exec_of_outOfRange (i := .bfRdw q) hq, fun p => ⟨fun hp => ?_, fun hp => ?_⟩⟩
  · rw [exec, execBfRdw, State.bvWordAt?_eq_some hq]
    rfl
  · rw [Params.bfM, hp]; rfl
  · rw [Params.bfM, hp]; rfl

/-! ## What a command leaves of the filter (R97) -/

/-- A command clears no bit. -/
theorem Effect.bvBit_mono {c : Instr} {s t : State} (h : Effect c s t) {i : Nat} (hi : s.bvBit i = true) :
    t.bvBit i = true := by
  obtain hbv | ⟨hash, -, hbv⟩ := h.bv
  · rwa [State.bvBit_congr hbv]
  · rw [State.bvBit_congr hbv, State.bvBit_setBvBits, hi, Bool.true_or]

/-- R97(b), for every command word, reserved opcodes included. -/
theorem runWord_bvBit_mono {w : CmdWord} {s t : State} (h : runWord w s = .next t) {i : Nat} (hi : s.bvBit i = true) :
    t.bvBit i = true := by
  obtain ⟨c, -, hrun⟩ | ⟨-, hrun⟩ := runWord_cases w s <;> rw [hrun] at h
  · exact (effect_of_exec h).bvBit_mono hi
  · cases h
    rwa [State.raise_bvBit]

/-- The filter's content is left by every command but `BF.OBS`. -/
theorem exec_filter_eq {c : Instr} {s t : State} (hc : ∀ h, c ≠ .bfObs h) (h : exec c s = .next t) :
    t.params = s.params ∧ t.bv = s.bv := by
  have heff := effect_of_exec h
  obtain hbv | ⟨hash, hobs, -⟩ := heff.bv
  · exact ⟨heff.params, hbv⟩
  · exact absurd hobs (hc hash)

theorem runWord_filter_eq {w : CmdWord} {s t : State} (hw : ∀ h, decode w ≠ .ok (.bfObs h)) (h : runWord w s = .next t) :
    t.params = s.params ∧ t.bv = s.bv := by
  obtain ⟨c, hdec, hrun⟩ | ⟨-, hrun⟩ := runWord_cases w s <;> rw [hrun] at h
  · exact exec_filter_eq (fun hash hc => hw hash (hc ▸ hdec)) h
  · cases h
    exact ⟨rfl, rfl⟩

theorem runWords_filter_eq {ws : List CmdWord} {s t : State} (hws : ∀ w ∈ ws, ∀ h, decode w ≠ .ok (.bfObs h))
    (h : runWords ws s = .next t) : t.params = s.params ∧ t.bv = s.bv := by
  induction ws generalizing s with
  | nil => cases h; exact ⟨rfl, rfl⟩
  | cons w ws ih =>
    rw [List.forall_mem_cons] at hws
    obtain ⟨hw, hws⟩ := hws
    rw [runWords] at h
    split at h
    next u hu =>
      obtain ⟨hp, hbv⟩ := runWord_filter_eq hw hu
      obtain ⟨hp', hbv'⟩ := ih hws h
      exact ⟨hp'.trans hp, hbv'.trans hbv⟩
    next => cases h
    next => cases h

/-! ## Runs without reset -/

/-- An edge takes no later edge away. -/
theorem EdgeCase.edges_eq {e : Edge} {s t : State} (h : EdgeCase e s t) : t.edges = s.edges := by
  have hdeliver : (deliver e s).edges = s.edges := by rw [deliver_eq]
  cases h with
  | reset _ ht => rw [ht, State.resetEvent_edges]
  | idle _ _ ht => rw [ht, hdeliver]
  | command w i _ _ _ ht => rw [(effect_of_exec ht).edges, hdeliver]
  | illegal w _ _ _ ht => rw [ht, State.raise_illegalCommand_edges, hdeliver]

theorem exists_step_of_after_succ {n : Nat} {s u : State} (h : after (n + 1) s = some u) :
    ∃ t, step s = .next t ∧ after n t = some u := by
  cases hstep : step s with
  | next t => exact ⟨t, rfl, after_succ_of_step hstep n ▸ h⟩
  | fault r => cases r
  | refused r => simp [after, Host.Core.run, core, hstep] at h

/-- What every edge without reset keeps, a run without reset keeps. -/
theorem after_of_noReset {P : State → Prop}
    (hP : ∀ e s t, EdgeCase e s t → e.rst = false → P s → P t) (hedges : ∀ s es, P s → P { s with edges := es })
    {n : Nat} {s u : State} (hno : noReset (s.edges.take n) = true) (hrun : after n s = some u) (hs : P s) : P u := by
  induction n generalizing s with
  | zero => cases hrun; exact hs
  | succ n ih =>
    obtain ⟨t, hstep, hrun⟩ := exists_step_of_after_succ hrun
    cases he : s.edges with
    | nil =>
      rw [step_of_no_edges he] at hstep
      cases hstep
      exact ih (by rw [he, List.take_nil]; rfl) hrun hs
    | cons e es =>
      have hedge := edgeCase_of_step he hstep
      rw [he, List.take_succ_cons, noReset, List.all_cons, Bool.and_eq_true, Bool.not_eq_true'] at hno
      obtain ⟨hrst, hno⟩ := hno
      exact ih (by rw [hedge.edges_eq]; exact hno) hrun (hP e _ t hedge hrst (hedges s es hs))

/-! ## Hits of a hash (R94, R97) -/

/-- The hash's bits are all set: what makes `BF.CHK` answer 1. -/
def State.Hits (s : State) (h : Word) : Prop := ∀ i ∈ subHashes s.params h, s.bvBit i = true

theorem exec_bfChk_eq_one_iff {h : Word} {s : State} :
    exec (.bfChk h) s = .next { s with rsp := s.rsp ++ [{ status := .ok, data := 1#64 }] } ↔ s.Hits h := by
  have hall : (subHashes s.params h).all s.bvBit = true ↔ s.Hits h := List.all_eq_true
  rw [exec, execBfChk, State.respond]
  by_cases hhit : s.Hits h
  · simp [hall.2 hhit, hhit]
  · simp [Bool.eq_false_iff.2 (mt hall.1 hhit), hhit]

theorem hits_of_exec_bfObs {h : Word} {s t : State} (ht : exec (.bfObs h) s = .next t) : t.Hits h := fun i hi => by
  rw [(effect_of_exec ht).params] at hi
  rw [bvBit_of_exec_bfObs ht, decide_eq_true hi, Bool.or_true]

theorem State.Hits.mono {s t : State} {h : Word} (hs : s.Hits h) (hp : t.params = s.params)
    (hbits : ∀ i, s.bvBit i = true → t.bvBit i = true) : t.Hits h := fun i hi => hbits i (hs i (hp ▸ hi))

theorem EdgeCase.hits {e : Edge} {s t : State} (hedge : EdgeCase e s t) (hrst : e.rst = false) {h : Word}
    (hs : s.Hits h) : t.Hits h := by
  refine hs.mono hedge.params_eq fun i hi => ?_
  rw [← deliver_bvBit e s] at hi
  cases hedge with
  | reset h1 => simp [h1] at hrst
  | idle _ _ ht => rwa [ht]
  | command w c _ _ _ ht => exact (effect_of_exec ht).bvBit_mono hi
  | illegal w _ _ _ ht => rwa [ht, State.raise_bvBit]

/-- Once a hash hits, it hits until reset. -/
theorem State.Hits.of_after {n : Nat} {s u : State} {h : Word} (hs : s.Hits h) (hno : noReset (s.edges.take n) = true)
    (hrun : after n s = some u) : u.Hits h :=
  after_of_noReset (P := fun s => s.Hits h) (fun _ _ _ hedge hrst => hedge.hits hrst) (fun _ _ hs => hs) hno hrun hs

/-! ## Repeated reads and `BK` (R97) -/

theorem State.exists_rsp_respondIndexed (element : Option Word) :
    ∃ r, ∀ s : State, (s.respondIndexed element).rsp = s.rsp ++ [r] := by
  cases element with
  | some v => exact ⟨_, fun s => s.respond_rsp .ok v⟩
  | none => exact ⟨_, State.raise_badIndex_rsp⟩

/-- `BF.CHK` and `BF.RDW` answer by the filter's content alone. -/
theorem exists_response_of_filter {a : Word} {i : Instr} (hi : i ∈ [Instr.bfChk a, Instr.bfRdw a]) (s : State) :
    ∃ r, ∀ u : State, u.params = s.params → u.bv = s.bv → ∃ u', exec i u = .next u' ∧ u'.rsp = u.rsp ++ [r] := by
  obtain rfl | rfl := List.mem_pair.1 hi
  · refine ⟨⟨.ok, if (subHashes s.params a).all s.bvBit then 1#64 else 0#64⟩, fun u hp hbv => ⟨_, rfl, ?_⟩⟩
    rw [State.respond_rsp, hp, State.bvBit_congr hbv]
  · obtain ⟨r, hr⟩ := State.exists_rsp_respondIndexed (s.bvWordAt? a)
    refine ⟨r, fun u hp hbv => ⟨_, rfl, ?_⟩⟩
    have hword : u.bvWordAt? a = s.bvWordAt? a := by
      rw [State.bvWordAt?, State.bvWordAt?, State.bvWord, State.bvWord, hp, hbv]
    rw [hword, hr]

theorem State.setBvBits_withBk (is : List Nat) (s : State) (bk : Cells 7) :
    { s with bk := bk }.setBvBits is = { s.setBvBits is with bk := bk } := by
  induction is generalizing s with
  | nil => rfl
  | cons i is ih => exact ih (s.setBvBit i)

/-- `BF.OBS` and `BF.CHK` commute with a change of `BK`, and leave it. -/
theorem exec_withBk {h : Word} {i : Instr} (hi : i ∈ [Instr.bfObs h, Instr.bfChk h]) {s t : State}
    (ht : exec i s = .next t) (bk : Cells 7) : t.bk = s.bk ∧ exec i { s with bk := bk } = .next { t with bk := bk } := by
  obtain rfl | rfl := List.mem_pair.1 hi <;> cases ht
  · exact ⟨State.setBvBits_bk s _,
      congrArg (fun u : State => Host.Outcome.next (u.respond .ok 0#64)) (State.setBvBits_withBk _ s bk)⟩
  · exact ⟨rfl, rfl⟩

/-- Settles O34: an observed hash hits, and a hit lasts until reset; the reads answer by the filter's content, which only
`BF.OBS` changes; `BF.OBS` and `BF.CHK` commute with a change of `BK`. -/
theorem bloomFilterProperties : Obligations.BloomFilterProperties := by
  refine ⟨fun h s t u n ht hno hrun => ?_, fun w s t i hw hi => runWord_bvBit_mono hw hi, fun h s u n hs hno hrun => ?_,
    fun a s t u r ws i hi ht hr hws hu => ?_, fun h s t bk i hi ht => exec_withBk hi ht bk⟩
  · exact exec_bfChk_eq_one_iff.2 ((hits_of_exec_bfObs ht).of_after hno hrun)
  · exact exec_bfChk_eq_one_iff.2 ((exec_bfChk_eq_one_iff.1 hs).of_after hno hrun)
  · obtain ⟨r', hanswer⟩ := exists_response_of_filter hi s
    obtain ⟨t', ht', hr'⟩ := hanswer s rfl rfl
    cases ht'.symm.trans ht
    obtain rfl : r' = r := by simpa using hr'.symm.trans hr
    obtain ⟨hp, hbv⟩ := exec_filter_eq (by rintro h rfl; simp at hi) ht
    obtain ⟨hp', hbv'⟩ := runWords_filter_eq hws hu
    exact hanswer u (hp'.trans hp) (hbv'.trans hbv)

end Sys2Proof.Machine
end

section
/-! PROOFS. LLE, the observing half of the cardinality estimator: the bucket index and the rank of a hash (R100, R101), and
what `LL.OBS` and `LL.RDB` do (R102, R103). -/

namespace Sys2Proof.Machine

/-! ## The bucket index (R100) -/

/-- Settles O35: the mask B - 1 keeps the low P bits, which is the remainder by B = 2^P; with P = 0 it is the remainder
by 1. -/
theorem bucketIndexIsLowBits : Obligations.BucketIndexIsLowBits := by
  refine ⟨fun p h => ⟨bucketIndex_eq p h, bucketIndex_lt p h, fun hp => ?_⟩, fun p hp => ?_⟩
  · rw [bucketIndex_eq, hp, pow_zero, Nat.mod_one]
  · rw [bucketIndex_eq, hp]
    rfl

/-! ## The rank (R101) -/

theorem rank_run {p : Params} {h : Word} {i : Nat} (hi : i < rank p h) : h.getLsbD (p.llP.val + i) = true := by
  rw [← BitVec.getLsbD_ushiftRight]
  exact cto_run hi

theorem rank_end {p : Params} {h : Word} (hlt : rank p h < 64 - p.llP.val) :
    h.getLsbD (p.llP.val + rank p h) = false := by
  rw [← BitVec.getLsbD_ushiftRight]
  exact cto_end (hlt.trans_le (Nat.sub_le ..))

/-- No run of 1-bits from bit P is longer than the rank. -/
theorem le_rank {p : Params} {h : Word} {n : Nat} (hn : n ≤ 64) (hrun : ∀ i < n, h.getLsbD (p.llP.val + i) = true) :
    n ≤ rank p h :=
  le_cto hn fun i hi => by rw [BitVec.getLsbD_ushiftRight, hrun i hi]

/-- The rank reaches its bound exactly when `h[63:P]` is all ones. -/
theorem rank_eq_iff (p : Params) (h : Word) :
    rank p h = 64 - p.llP.val ↔ ∀ i, p.llP.val ≤ i → i < 64 → h.getLsbD i = true := by
  constructor
  · intro hrank i hle hlt
    have hbit : h.getLsbD (p.llP.val + (i - p.llP.val)) = true := rank_run (by omega)
    rwa [Nat.add_sub_cancel' hle] at hbit
  · intro hones
    have hle : 64 - p.llP.val ≤ rank p h :=
      le_rank (Nat.sub_le ..) fun i hi => hones _ (Nat.le_add_right ..) (by omega)
    exact (rank_le p h).antisymm hle

/-- Settles O36: the run, its end and its bound are those of `cto` at the shifted hash; the examples are evaluated at
P = 4. -/
theorem rankIsTrailingOnes : Obligations.RankIsTrailingOnes := by
  refine ⟨fun p h => ⟨fun _ => rank_run, rank_end, rfl, rank_le p h, rank_eq_iff p h⟩, fun p hp => ?_⟩
  rw [rank, rank, rank, hp]
  decide

/-! ## LL.OBS (R102) -/

/-- Raising a counter to a rank that is not larger leaves `BK` as it is, as the same canonical data. -/
theorem State.Inv.raiseBk_bk_of_le {s : State} (hinv : s.Inv) {j k : Nat} (hj : j < s.params.llB)
    (hk : k ≤ (s.bkCounter j).toNat) : (s.raiseBk j k).bk = s.bk := by
  have hk64 : k ≤ 64 := (hk.trans (hinv.bkRange j)).trans (Nat.sub_le ..)
  refine Cells.eq_of_read_eq _ _ (State.raiseBk_wf hinv.bkForm hj) hinv.bkForm fun i => BitVec.eq_of_toNat_eq ?_
  refine (State.bkCounter_raiseBk hinv.bkForm hk64 i).trans ?_
  split
  next hij => rw [max_eq_left hk, hij, State.bkCounter]
  next => rfl

/-- `LL.OBS` writes `BK` and its response, and nothing else. -/
theorem exec_llObs_eq (h : Word) (s : State) : exec (.llObs h) s =
    .next { s with
      bk := (s.raiseBk (bucketIndex s.params h) (rank s.params h)).bk
      rsp := s.rsp ++ [{ status := .ok, data := 0#64 }] } := rfl

/-- Settles O37: the frame by `exec_llObs_eq`, the counters by `State.bkCounter_raiseBk`, no change by the canonical form
of `BK`, the bound by the invariant after the raise. -/
theorem llObsRaisesOneCounter : Obligations.LlObsRaisesOneCounter := by
  refine ⟨fun h => rfl, fun h s hinv => ⟨_, exec_llObs_eq h s, fun j => ?_, fun hle => ?_, ?_⟩⟩
  · have hrank : rank s.params h ≤ 64 := (rank_le s.params h).trans (Nat.sub_le ..)
    refine (State.bkCounter_raiseBk hinv.bkForm hrank j).trans ?_
    rw [bucketIndex_eq]
    exact ite_congr rfl (fun hj => by rw [hj]; rfl) fun _ => rfl
  · refine hinv.raiseBk_bk_of_le (bucketIndex_lt s.params h) ?_
    rw [bucketIndex_eq]
    exact hle
  · exact (hinv.raiseBk (bucketIndex_lt s.params h) (rank_le s.params h)).bkRange

/-! ## LL.RDB (R103) -/

theorem State.bkAt?_eq_some {s : State} {j : Word} (h : j.toNat < s.params.llB) :
    s.bkAt? j = some ((s.bkCounter j.toNat).setWidth 64) := if_pos h

/-- Settles O38: in range the response is the counter zero-extended, which the invariant bounds; out of range
`BadIndex`. -/
theorem llRdbReadsCounter : Obligations.LlRdbReadsCounter := by
  refine ⟨fun j => rfl, fun j s hj => ⟨(s.bkCounter j.toNat).setWidth 64, ?_, ?_, fun hinv => ?_⟩,
    fun j s hj => exec_of_outOfRange (i := .llRdb j) hj⟩
  · rw [exec, execLlRdb, State.bkAt?_eq_some hj]
    rfl
  · exact BitVec.toNat_setWidth_of_le (by decide)
  · rw [BitVec.toNat_setWidth_of_le (by decide)]
    exact hinv.bkRange j.toNat

end Sys2Proof.Machine
end

section
/-! PROOFS. LLE, the three estimates (R111 to R113): each is the rounding of the rule's real number, by `Laws/Exp2.lean` and
`Laws/Ln.lean`. The rules' worked values are evaluated. -/

namespace Sys2Proof.Machine

/-! ## LL.EST (R111) -/

theorem estimate_eq_floor (p : Params) (bk : List Nat) : estimate p bk =
    ⌊(p.alpha : ℝ) * p.llB * (2 : ℝ) ^ ((bk.sum : ℝ) / p.llB) + 1 / 2⌋₊ := by
  have hq : 0 < p.alpha * p.llB := mul_pos (alpha_bounds p.llB).1 (Nat.cast_pos.2 p.llB_pos)
  rw [estimate, sumOf, Laws.roundMulExp2_eq_floor hq bk.sum p.llB_pos.ne', Rat.cast_mul, Rat.cast_natCast]

/-- Settles O40: the search of R115 ends at the rounded real number, because ALPHA * B is positive. -/
theorem llEstIsRoundedGeometricMean : Obligations.LlEstIsRoundedGeometricMean := by
  refine ⟨rfl, fun s => ?_, fun w => ?_⟩
  · rw [← estimate_eq_floor]
    rfl
  · cases w <;> decide +kernel

/-! ## LL.SEST (R112) -/

/-- Floor(9*B/10) is 0 for one bucket alone. -/
theorem cutoff_eq_zero_iff (p : Params) : cutoff p.llB = 0 ↔ p.llB = 1 := by
  have hpos := p.llB_pos
  rw [cutoff]
  omega

/-- The sum of the smallest counters is that of the front of any ascending copy: there is one ascending copy only. -/
theorem prefixSum_eq_of_perm {bk t : List Nat} (hperm : t.Perm bk) (hasc : t.Pairwise (· ≤ ·)) (b : Nat) :
    prefixSum b bk = (t.take (cutoff b)).sum := by
  have hsort : bk.insertionSort (· ≤ ·) = t :=
    ((List.perm_insertionSort _ bk).trans hperm.symm).eq_of_pairwise' (List.pairwise_insertionSort _ bk) hasc
  rw [prefixSum, hsort]

theorem superEstimate_eq_floor {p : Params} (bk : List Nat) (hcut : cutoff p.llB ≠ 0) : superEstimate p bk =
    ⌊(79402 / 100000 : ℝ) * cutoff p.llB * (2 : ℝ) ^ ((prefixSum p.llB bk : ℝ) / cutoff p.llB) + 1 / 2⌋₊ := by
  have hq : (0 : Rat) < 79402 / 100000 * cutoff p.llB :=
    mul_pos (by norm_num) (Nat.cast_pos.2 (Nat.pos_of_ne_zero hcut))
  rw [superEstimate, if_neg hcut, Laws.roundMulExp2_eq_floor hq _ hcut]
  push_cast
  rfl

/-- Settles O41: the search of R115 over the front of the ascending copy; with one bucket that front is empty. -/
theorem llSestIsRoundedTrimmedMean : Obligations.LlSestIsRoundedTrimmedMean := by
  refine ⟨rfl, fun s t c hperm hasc hc hne => ?_, fun s hone => ?_, cutoff_eq_zero_iff, fun w => ?_⟩
  · obtain rfl : c = cutoff s.params.llB := hc
    rw [← prefixSum_eq_of_perm hperm hasc, ← superEstimate_eq_floor s.buckets hne]
    rfl
  · have hzero : superEstimate s.params s.buckets = 0 := if_pos ((cutoff_eq_zero_iff s.params).2 hone)
    rw [exec, execLlSest, hzero]
    rfl
  · cases w <;> decide +kernel

/-! ## LL.HEST (R113) -/

theorem cast_harmonicSum (bk : List Nat) : (harmonicSum bk : ℝ) = (bk.map fun v => 1 / (2 : ℝ) ^ v).sum := by
  rw [harmonicSum, Rat.cast_list_sum, List.map_map]
  congr 2
  funext v
  simp

theorem cast_rawEstimate (p : Params) (bk : List Nat) : (rawEstimate p bk : ℝ) =
    2 * p.llB * (p.alpha : ℝ) * (p.llB / (bk.map fun v => 1 / (2 : ℝ) ^ v).sum) := by
  rw [← cast_harmonicSum, rawEstimate]
  push_cast
  rfl

/-- R113's comparison, made exactly, is that of the real numbers. -/
theorem rawEstimate_lt_iff (p : Params) (bk : List Nat) :
    rawEstimate p bk < 5 / 2 * p.llB ↔ (rawEstimate p bk : ℝ) < 5 / 2 * p.llB := by
  rw [← Rat.cast_lt (K := ℝ)]
  push_cast
  rfl

theorem State.length_buckets (s : State) : s.buckets.length = s.params.llB := by
  rw [buckets, List.length_map, List.length_range]

theorem State.emptyCount_buckets_le (s : State) : emptyCount s.buckets ≤ s.params.llB :=
  List.count_le_length.trans s.length_buckets.le

/-- The small range. -/
theorem hyperEstimate_of_small {p : Params} {bk : List Nat} (hraw : rawEstimate p bk < 5 / 2 * p.llB)
    (hempty : 1 ≤ emptyCount bk) : hyperEstimate p bk = roundMulLn p.llB (emptyCount bk) := if_pos ⟨hraw, hempty⟩

/-- Every other case. -/
theorem hyperEstimate_of_not_small {p : Params} {bk : List Nat}
    (h : ¬(rawEstimate p bk < 5 / 2 * p.llB ∧ 1 ≤ emptyCount bk)) :
    hyperEstimate p bk = roundHalfUp (rawEstimate p bk) := if_neg h

/-- -B*ln(e/B), as R113 writes it, rounded. -/
theorem roundMulLn_eq_floor_neg {b e : Nat} (he : 1 ≤ e) (heb : e ≤ b) :
    roundMulLn b e = ⌊-(b : ℝ) * Real.log ((e : ℝ) / b) + 1 / 2⌋₊ := by
  rw [Laws.roundMulLn_eq_floor he heb, ← inv_div, Real.log_inv, mul_neg, neg_mul]

/-! ### The empty state -/

theorem State.buckets_resetOf (p : Params) : (State.resetOf p).buckets = List.replicate p.llB 0 := by
  simp [buckets]

/-- With every bucket empty, raw is 2*ALPHA*B, below 2.5*B. -/
theorem rawEstimate_replicate_zero_lt (p : Params) : rawEstimate p (List.replicate p.llB 0) < 5 / 2 * p.llB := by
  have hB : (0 : Rat) < p.llB := Nat.cast_pos.2 p.llB_pos
  have halpha : p.alpha ≤ 7213 / 10000 := (alpha_bounds p.llB).2
  have hsum : harmonicSum (List.replicate p.llB 0) = p.llB := by simp [harmonicSum]
  rw [rawEstimate, hsum, div_self hB.ne']
  nlinarith

theorem hyperEstimate_replicate_zero (p : Params) : hyperEstimate p (List.replicate p.llB 0) = 0 := by
  have hcount : emptyCount (List.replicate p.llB 0) = p.llB := List.count_replicate_self
  have hempty : 1 ≤ emptyCount (List.replicate p.llB 0) := p.llB_pos.trans_eq hcount.symm
  rw [hyperEstimate_of_small (rawEstimate_replicate_zero_lt p) hempty, hcount, roundMulLn, if_pos rfl]

/-- Settles O42: both regimes round their real number, and the exact comparison tells them apart as the real one does; in
the empty state the small range has ln 1. -/
theorem llHestIsRoundedHarmonicMean : Obligations.LlHestIsRoundedHarmonicMean := by
  refine ⟨rfl, fun s z raw hz hraw => ?_, fun p => ?_, fun w => ?_⟩
  · obtain rfl : raw = rawEstimate s.params s.buckets := by rw [hraw, hz, cast_rawEstimate]
    rw [← rawEstimate_lt_iff]
    refine ⟨fun hsmall hempty => ?_, fun hnot => ?_⟩
    · rw [← roundMulLn_eq_floor_neg hempty s.emptyCount_buckets_le, exec, execLlHest,
        hyperEstimate_of_small hsmall hempty]
      rfl
    · rw [← Laws.roundHalfUp_eq_floor, exec, execLlHest, hyperEstimate_of_not_small hnot]
      rfl
  · rw [exec, execLlHest, State.buckets_resetOf, State.resetOf_params, hyperEstimate_replicate_zero]
    rfl
  · cases w <;> decide +kernel

end Sys2Proof.Machine
end

section
/-! PROOFS. The system command: the two control and status registers, and `CSR.RD` of them and of every other address
(R24, R130). -/

namespace Sys2Proof.Machine

/-! ## The register map (R24) -/

@[simp] theorem State.csr?_zero (s : State) : s.csr? 0#64 = some (configWord s.params) := if_pos rfl

@[simp] theorem State.csr?_one (s : State) : s.csr? 1#64 = some (statusWord s) :=
  (if_neg (by decide)).trans (if_pos rfl)

/-! ## CSR.RD (R130) -/

/-- Reading an assigned address responds with the register and clears nothing. -/
theorem exec_csrRd_of_csr? {s : State} {a v : Word} (h : s.csr? a = some v) :
    exec (.csrRd a) s = .next (s.respond .ok v) := by
  rw [exec, execCsrRd, h, State.respondIndexed_some]

/-- Settles O26: the two assigned addresses by the register map, every other by `exec_of_outOfRange`. -/
theorem csrRdReadsRegisters : Obligations.CsrRdReadsRegisters :=
  ⟨fun _ => rfl, fun s => ⟨exec_csrRd_of_csr? s.csr?_zero, exec_csrRd_of_csr? s.csr?_one,
    fun a ha => exec_of_outOfRange (i := .csrRd a) ha⟩⟩

end Sys2Proof.Machine
end

section
/-! PROOFS. The two exceptions: what a word with a reserved opcode does (R142), and an I-form operand out of range (R143).
Both are one `State.raise`, and its frame is the record update the rules write. -/

namespace Sys2Proof.Machine

/-- Settles O22: a word that does not decode raises `IllegalCommand` (`runWord_of_not_exists`). -/
theorem illegalCommandEntry : Obligations.IllegalCommandEntry := fun _ s hw => runWord_of_not_exists hw s

/-- Settles O23: each of the three premises is `Instr.OutOfRange` of its command, and `exec_of_outOfRange` says that the
command then raises `BadIndex`. -/
theorem badIndexEntry : Obligations.BadIndexEntry := fun _ a =>
  ⟨fun hq => exec_of_outOfRange (i := .bfRdw a) hq,
    fun hj => exec_of_outOfRange (i := .llRdb a) hj,
    fun ha => exec_of_outOfRange (i := .csrRd a) ha⟩

end Sys2Proof.Machine
end

section
/-! PROOFS. The encoder and the decoder undo each other (R60, R62, R64), but for the ignored `data` of an N-form command
(R66). -/

namespace Sys2Proof

/-- A command's word decodes to it, whatever its operand. -/
theorem decode_encode (i : Instr) : decode (encode i) = .ok i := by
  rw [encode, decode_cmdWordOf_code, Opcode.command_opcode_data]

/-- A command that was decoded is the row its word's opcode selects, applied to the word's `data`. -/
theorem exists_row_of_decode {w : CmdWord} {i : Instr} (h : decode w = .ok i) :
    ∃ o : Opcode, o.code = cmdOpField w ∧ i = o.command (cmdDataField w) := by
  cases hrow : Opcode.ofCode? (cmdOpField w) with
  | some o =>
    rw [decode_of_ofCode? hrow] at h
    cases h
    exact ⟨o, Opcode.code_of_ofCode? hrow, rfl⟩
  | none =>
    rw [decode_of_reserved hrow] at h
    cases h

@[simp] theorem Opcode.opcode_command (o : Opcode) (data : Word) : (o.command data).opcode = o := by cases o <;> rfl

/-- Only an N-form command loses its `data` field. -/
theorem Opcode.data_command {o : Opcode} (h : o.form ≠ .unused) (data : Word) : (o.command data).data = data := by
  cases o with
  | llEst | llSest | llHest => exact absurd rfl h
  | _ => rfl

/-- Settles O1: a command is its row applied to its `data` field, and each code selects its own row. -/
theorem decodeEncodeRoundTrip : Obligations.DecodeEncodeRoundTrip := fun i _ => decode_encode i

/-- Settles O2: the word's opcode is the code of the row that was decoded, and the word is put together from its two
fields, of which an N-form command keeps the first alone. -/
theorem encodeDecodeRoundTrip : Obligations.EncodeDecodeRoundTrip := by
  intro w i h
  obtain ⟨o, hcode, rfl⟩ := exists_row_of_decode h
  refine ⟨?_, fun hform => ?_, fun hform => ?_⟩
  · rw [encode, cmdOpField_cmdWordOf, Opcode.opcode_command, hcode]
  · rw [Opcode.opcode_command] at hform
    rw [encode, Opcode.opcode_command, Opcode.data_command hform, hcode, cmdWordOf_fields]
  · rw [encode, cmdDataField_cmdWordOf, Instr.data_of_unused hform]

/-- Settles O3: the six words are evaluated. -/
theorem writtenWordsDecode : Obligations.WrittenWordsDecode := by
  unfold Obligations.WrittenWordsDecode
  decide

end Sys2Proof
end

section
/-! PROOFS. The invariant: it holds after every reset (R31), and a delivery, a command, an exception and a reset each keep
it (R22, R23, R63, R102). -/

namespace Sys2Proof.Machine

/-- Empty arrays and an empty port, whatever edges are to come. -/
theorem State.Inv.of_empty {s : State} (hbv : s.bv = []) (hbk : s.bk = []) (hrsp : s.rsp = []) : s.Inv where
  bvForm := by rw [hbv]; rfl
  bkForm := by rw [hbk]; rfl
  bkRange j := by rw [State.bkCounter, hbk, Cells.read_nil]; exact Nat.zero_le _
  errorData := by rw [hrsp]; exact nofun

theorem State.inv_resetOf (p : Params) : (State.resetOf p).Inv := .of_empty rfl rfl rfl

theorem State.inv_resetEvent (s : State) : s.resetEvent.Inv := .of_empty rfl rfl rfl

theorem State.Inv.deliver {s : State} (h : s.Inv) (e : Edge) : (deliver e s).Inv := by
  obtain ⟨-, hd⟩ | ⟨-, hd⟩ := deliver_cases e s <;> rw [hd]
  · exact h.dropResponse
  · exact h

/-- A command keeps the invariant: the slices of a hash are valid bit indices, its bucket index is valid and its rank at
most 64 - P. -/
theorem Effect.inv {i : Instr} {s t : State} (h : Effect i s t) (hs : s.Inv) : t.Inv where
  bvForm := by
    rw [h.params]
    obtain hbv | ⟨hash, -, hbv⟩ := h.bv <;> rw [hbv]
    · exact hs.bvForm
    · simpa using (hs.setBvBits fun _ => subHashes_lt).bvForm
  bkForm := by
    rw [h.params]
    obtain hbk | ⟨hash, -, hbk⟩ := h.bk <;> rw [hbk]
    · exact hs.bkForm
    · exact (hs.raiseBk (bucketIndex_lt _ hash) (rank_le _ hash)).bkForm
  bkRange j := by
    rw [h.params]
    obtain hbk | ⟨hash, -, hbk⟩ := h.bk <;> rw [State.bkCounter_congr hbk]
    · exact hs.bkRange j
    · exact (hs.raiseBk (bucketIndex_lt _ hash) (rank_le _ hash)).bkRange j
  errorData r hr := by
    obtain ⟨r', hrsp, hr'⟩ := h.rsp
    rw [hrsp, List.mem_append, List.mem_singleton] at hr
    obtain hr | rfl := hr
    · exact hs.errorData r hr
    · exact hr'

theorem EdgeCase.inv {e : Edge} {s t : State} (h : EdgeCase e s t) (hs : s.Inv) : t.Inv := by
  cases h with
  | reset _ ht => rw [ht]; exact s.inv_resetEvent
  | idle _ _ ht => rw [ht]; exact hs.deliver e
  | command w i _ _ _ ht => exact (effect_of_exec ht).inv (hs.deliver e)
  | illegal w _ _ _ ht => rw [ht]; exact (hs.deliver e).raise _

/-- Settles O19: the arrays and the response port are empty. -/
theorem resetMeetsInvariant : Obligations.ResetMeetsInvariant :=
  ⟨State.inv_resetOf, State.inv_resetOf defaultParams⟩

/-- Settles O20: each kind of edge keeps the invariant, and with no edge left nothing changes. -/
theorem stepKeepsInvariant : Obligations.StepKeepsInvariant := by
  intro s t hs h
  cases he : s.edges with
  | nil => rw [step_of_no_edges he] at h; cases h; exact hs
  | cons e es =>
    have hs' : State.Inv { s with edges := es } := hs.congr rfl rfl rfl hs.errorData
    exact (edgeCase_of_step he h).inv hs'

end Sys2Proof.Machine
end

section
/-! PROOFS. One edge: it always completes (R166); reset edges (R160, R162), acceptance and delivery (R61); and along a run,
that the timing of the two ports changes no result (R48, R61(c) to (e)). -/

namespace Sys2Proof.Machine

/-! ## Every edge completes (R166) -/

theorem exists_runWord (w : CmdWord) (s : State) : ∃ t, runWord w s = .next t := by
  obtain ⟨i, -, hrun⟩ | ⟨-, hrun⟩ := runWord_cases w s <;> rw [hrun]
  · obtain ⟨t, ht, -⟩ := exec_effect i s
    exact ⟨t, ht⟩
  · exact ⟨_, rfl⟩

theorem exists_atEdge (e : Edge) (s : State) : ∃ t, atEdge e s = .next t := by
  unfold atEdge
  split
  · exact ⟨_, rfl⟩
  · split
    · exact exists_runWord ..
    · exact ⟨_, rfl⟩

/-- Settles O15: a word runs as a command or as `IllegalCommand`, and both answer a next state; a step is at most one
word. -/
theorem everyStepCompletes : Obligations.EveryStepCompletes := by
  refine ⟨fun s => ?_, exists_runWord⟩
  cases he : s.edges with
  | nil => exact ⟨s, step_of_no_edges he⟩
  | cons e es => rw [step_of_edge he]; exact exists_atEdge ..

/-! ## Reset edges (R160, R162) -/

theorem step_of_reset_edge {s : State} {e : Edge} {es : List Edge} (he : s.edges = e :: es) (hrst : e.rst = true) :
    step s = .next { State.resetOf s.params with edges := es } := by
  rw [step_of_edge he, atEdge_reset hrst]
  rfl

/-- Settles O11: a reset edge has priority, and the reset state's arrays read as 0. -/
theorem resetValues : Obligations.ResetValues := by
  refine ⟨fun s e es => step_of_reset_edge, fun p => ⟨State.bvBit_resetOf p, State.bkCounter_resetOf p, rfl, rfl,
    State.csr?_zero _, fun e => ?_, rfl⟩⟩
  rw [State.rspValid, State.resetOf_rsp, List.isEmpty_nil, Bool.not_true, Bool.and_false]

/-- Settles O12: acceptance and delivery both need `rst` = 0, and the next state is the reset state. -/
theorem resetEdge : Obligations.ResetEdge := by
  refine fun s e es he hrst => ⟨?_, ?_, step_of_reset_edge he hrst⟩
  · simp [Edge.accepted?, hrst]
  · simp [State.delivered?, hrst]

/-! ## Edges without reset (R61) -/

/-- A delivery, written out. -/
theorem deliver_eq_ite (e : Edge) (s : State) :
    deliver e s = { s with rsp := if e.rspValid && e.rspReady then s.rsp.tail else s.rsp } := by
  unfold deliver
  split <;> rfl

/-- Settles O13: an edge that accepts a word runs the command it decodes to, after the delivery. -/
theorem stepRunsAcceptedCommand : Obligations.StepRunsAcceptedCommand := by
  intro s e es i he hrst hvalid hready hdec
  rw [step_of_edge he, atEdge_accept hrst hvalid hready, runWord, hdec, deliver_eq_ite]

/-- Settles O14: an edge that accepts nothing is a delivery and no more. -/
theorem stepWithoutAcceptance : Obligations.StepWithoutAcceptance := by
  refine ⟨fun s => step_of_no_edges, fun s e es he hrst hidle => ?_⟩
  rw [step_of_edge he, atEdge_idle hrst (Bool.and_eq_false_iff.2 hidle), deliver_eq_ite]

/-- An edge without reset puts the new response, if there is one, behind those that wait. -/
theorem EdgeCase.rsp_append {e : Edge} {s t : State} (h : EdgeCase e s t) (hrst : e.rst = false) :
    ∃ more, t.rsp = (deliver e s).rsp ++ more := by
  cases h with
  | reset h1 => simp [h1] at hrst
  | idle _ _ ht => exact ⟨[], by rw [ht, List.append_nil]⟩
  | command w i _ _ _ ht =>
    obtain ⟨r, hr, -⟩ := (effect_of_exec ht).rsp
    exact ⟨_, hr⟩
  | illegal w _ _ _ ht => exact ⟨_, by rw [ht, State.raise_illegalCommand_rsp]⟩

/-- Where a response is offered, it is the oldest. -/
theorem State.rspWord?_of_head? {s : State} {e : Edge} {r : Response} (hhead : s.rsp.head? = some r)
    (hvalid : s.rspValid e = true) : s.rspWord? e = some r.word := by
  rw [rspWord?, if_pos hvalid, hhead, Option.map_some]

/-- With a response waiting, `rsp_valid` is the edge's own bit. -/
theorem State.rspValid_of_head? {s : State} {r : Response} (hhead : s.rsp.head? = some r) (e : Edge) :
    s.rspValid e = e.rspValid := by
  have hne : s.rsp.isEmpty = false := by
    rw [Bool.eq_false_iff, ne_eq, List.isEmpty_iff]
    intro hnil
    simp [hnil] at hhead
  rw [rspValid, hne, Bool.not_false, Bool.and_true]

theorem State.delivered?_of_not_rst {e : Edge} (hrst : e.rst = false) (s : State) :
    s.delivered? e = if e.rspValid && e.rspReady then s.rsp.head? else none := by
  rw [delivered?, hrst, Bool.not_false, Bool.true_and]

/-- Settles O16: the port offers the queue's head, which only a delivery takes away, and a new response goes behind it. -/
theorem offeredResponseIsStable : Obligations.OfferedResponseIsStable := by
  intro s t e es r he hrst hhead hstep
  obtain ⟨more, hrsp⟩ := (edgeCase_of_step he hstep).rsp_append hrst
  rw [deliver_eq_ite] at hrsp
  rw [State.rspValid_of_head? hhead, State.delivered?_of_not_rst hrst]
  refine ⟨fun hvalid => State.rspWord?_of_head? hhead ((State.rspValid_of_head? hhead e).trans hvalid),
    fun hdel => ⟨?_, more, ?_⟩, fun hdel => ⟨?_, fun e' => State.rspWord?_of_head? ?_⟩⟩
  · rw [if_pos hdel, hhead]
  · rw [hrsp, if_pos hdel]
  · exact if_neg (Bool.eq_false_iff.1 hdel)
  · rw [hrsp, if_neg (Bool.eq_false_iff.1 hdel), List.head?_append, hhead, Option.some_or]

/-! ## Ports and serial execution (R48, R61(c) to (e)) -/

/-- The state with responses `d` put in front of those that wait, and with other edges to come: what the same machine would
be if `d` had not been delivered. -/
def State.behind (s : State) (d : List Response) (es : List Edge) : State := { s with rsp := d ++ s.rsp, edges := es }

theorem State.setBvBits_behind (is : List Nat) (s : State) (d : List Response) (es : List Edge) :
    (s.behind d es).setBvBits is = (s.setBvBits is).behind d es := by
  induction is generalizing s with
  | nil => rfl
  | cons i is ih => exact ih (s.setBvBit i)

theorem State.respond_behind (s : State) (d : List Response) (es : List Edge) (st : RspStatus) (v : Word) :
    (s.behind d es).respond st v = (s.respond st v).behind d es := by
  simp only [respond, behind, List.append_assoc]

theorem State.raise_behind (s : State) (d : List Response) (es : List Edge) (e : Exception) :
    (s.behind d es).raise e = (s.raise e).behind d es := by
  cases e with
  | illegalCommand => exact State.respond_behind { s with ill := true } d es .illegalCmd 0#64
  | badIndex => exact State.respond_behind { s with idx := true } d es .badIndex 0#64

theorem State.respondIndexed_behind (s : State) (d : List Response) (es : List Edge) (element : Option Word) :
    (s.behind d es).respondIndexed element = (s.respondIndexed element).behind d es := by
  cases element with
  | some v => exact s.respond_behind d es .ok v
  | none => exact s.raise_behind d es .badIndex

/-- No command looks at the responses that wait or at the edges to come. -/
theorem exec_behind {i : Instr} {s t : State} (h : exec i s = .next t) (d : List Response) (es : List Edge) :
    exec i (s.behind d es) = .next (t.behind d es) := by
  cases i with
  | bfObs hash =>
    cases h
    rw [← State.respond_behind, ← State.setBvBits_behind]
    rfl
  | llObs hash =>
    cases h
    exact congrArg _ ((s.raiseBk (bucketIndex s.params hash) (rank s.params hash)).respond_behind d es .ok 0#64)
  | csrRd a => cases h; exact congrArg _ (s.respondIndexed_behind d es (s.csr? a))
  | bfRdw q => cases h; exact congrArg _ (s.respondIndexed_behind d es (s.bvWordAt? q))
  | llRdb j => cases h; exact congrArg _ (s.respondIndexed_behind d es (s.bkAt? j))
  | _ => cases h; exact congrArg _ (s.respond_behind d es .ok _)

theorem runWord_behind {w : CmdWord} {s t : State} (h : runWord w s = .next t) (d : List Response) (es : List Edge) :
    runWord w (s.behind d es) = .next (t.behind d es) := by
  unfold runWord at h ⊢
  split at h
  · exact exec_behind h d es
  · cases h
    exact congrArg _ (s.raise_behind d es .illegalCommand)

/-- The response that an edge without reset delivers is the one that `deliver` takes off the queue. -/
theorem State.delivered?_append {e : Edge} (hrst : e.rst = false) (s : State) :
    (s.delivered? e).toList ++ (deliver e s).rsp = s.rsp := by
  rw [State.delivered?_of_not_rst hrst, deliver_eq_ite]
  split
  · cases s.rsp <;> rfl
  · rfl

theorem deliver_behind {e : Edge} (hrst : e.rst = false) (s : State) (d : List Response) (es : List Edge) :
    (deliver e s).behind (d ++ (s.delivered? e).toList) es = s.behind d es := by
  rw [State.behind, List.append_assoc, State.delivered?_append hrst, deliver_eq]
  rfl

/-- One edge without reset does to the arrays, the flags and the sequence of responses what its accepted word does, if there
is one. -/
theorem runWords_accepted_of_atEdge {e : Edge} {s t : State} (hrst : e.rst = false) (h : atEdge e s = .next t)
    (d : List Response) (es : List Edge) :
    runWords e.accepted?.toList (s.behind d es) = .next (t.behind (d ++ (s.delivered? e).toList) es) := by
  rw [← deliver_behind hrst s d es]
  rw [atEdge, hrst, if_neg Bool.false_ne_true] at h
  split at h
  next w hacc => rw [hacc, Option.toList_some, runWords_cons_of_runWord (runWord_behind h _ es), runWords_nil]
  next hacc => cases h; rw [hacc, Option.toList_none, runWords_nil]

theorem runWords_append_of_runWords {ws : List CmdWord} {s t : State} (h : runWords ws s = .next t) (ws' : List CmdWord) :
    runWords (ws ++ ws') s = runWords ws' t := by
  induction ws generalizing s with
  | nil => cases h; rfl
  | cons w ws ih =>
    obtain ⟨u, hu⟩ := exists_runWord w s
    rw [runWords_cons_of_runWord hu] at h
    rw [List.cons_append, runWords_cons_of_runWord hu, ih h]

theorem deliveredBy_of_no_edges {s : State} (he : s.edges = []) (n : Nat) : deliveredBy n s = [] := by
  cases n with
  | zero => rfl
  | succ n => rw [deliveredBy, he]

theorem deliveredBy_succ {s t : State} {e : Edge} {es : List Edge} (he : s.edges = e :: es) (h : step s = .next t)
    (n : Nat) : deliveredBy (n + 1) s = (s.delivered? e).toList ++ deliveredBy n t := by
  rw [deliveredBy, he, h]

/-- R48's serial execution of the accepted words, along any run without reset: had nothing been delivered, the state would
be the one it leaves. -/
theorem runWords_acceptedWords_of_after {n : Nat} {s t : State} (hno : noReset (s.edges.take n) = true)
    (hrun : after n s = some t) (d : List Response) (es : List Edge) :
    runWords (acceptedWords (s.edges.take n)) (s.behind d es) = .next (t.behind (d ++ deliveredBy n s) es) := by
  induction n generalizing s d with
  | zero =>
    cases hrun
    rw [deliveredBy, List.append_nil]
    rfl
  | succ n ih =>
    obtain ⟨u, hstep, hrun⟩ := exists_step_of_after_succ hrun
    cases he : s.edges with
    | nil =>
      rw [step_of_no_edges he] at hstep
      cases hstep
      have hrest := ih (by rw [he, List.take_nil]; rfl) hrun d
      rw [deliveredBy_of_no_edges he, he, List.take_nil] at hrest
      rwa [deliveredBy_of_no_edges he, List.take_nil]
    | cons e rest =>
      have hedges : u.edges = rest := (edgeCase_of_step he hstep).edges_eq
      rw [he, List.take_succ_cons, noReset, List.all_cons, Bool.and_eq_true, Bool.not_eq_true'] at hno
      obtain ⟨hrst, hno⟩ := hno
      have hedge := runWords_accepted_of_atEdge hrst (step_of_edge he ▸ hstep) d es
      have hrest := ih (by rw [hedges]; exact hno) hrun (d ++ (s.delivered? e).toList)
      rw [hedges, List.append_assoc, ← deliveredBy_succ he hstep] at hrest
      have hwords : acceptedWords (e :: rest.take n) = e.accepted?.toList ++ acceptedWords (rest.take n) := by
        cases hacc : e.accepted? <;> simp [acceptedWords, hacc]
      rw [List.take_succ_cons, hwords]
      exact (runWords_append_of_runWords hedge _).trans hrest

/-- Settles O18: the serial execution leaves the run's own state, with the delivered responses in front of those that
wait. -/
theorem portTimingChangesNoResult : Obligations.PortTimingChangesNoResult := fun _ s _ hno hrun =>
  ⟨_, runWords_acceptedWords_of_after hno hrun [] s.edges, rfl, rfl, rfl, rfl, rfl, rfl⟩

theorem runWord_rsp {w : CmdWord} {s t : State} (h : runWord w s = .next t) : ∃ r, t.rsp = s.rsp ++ [r] := by
  obtain ⟨i, -, hrun⟩ | ⟨-, hrun⟩ := runWord_cases w s <;> rw [hrun] at h
  · obtain ⟨r, hr, -⟩ := (effect_of_exec h).rsp
    exact ⟨r, hr⟩
  · cases h
    exact ⟨_, s.raise_illegalCommand_rsp⟩

theorem length_rsp_of_runWords {ws : List CmdWord} {s t : State} (h : runWords ws s = .next t) :
    t.rsp.length = s.rsp.length + ws.length := by
  induction ws generalizing s with
  | nil => cases h; rfl
  | cons w ws ih =>
    obtain ⟨u, hu⟩ := exists_runWord w s
    obtain ⟨r, hr⟩ := runWord_rsp hu
    rw [runWords_cons_of_runWord hu] at h
    rw [ih h, hr, List.length_append, List.length_singleton, List.length_cons, Nat.add_assoc, Nat.add_comm 1]

/-- Settles O17: the serial execution of the accepted words produces one response for each, and what it has produced is what
was delivered and what waits. -/
theorem oneResponsePerCommand : Obligations.OneResponsePerCommand := by
  intro n s t hno hrun
  have hlength := length_rsp_of_runWords (runWords_acceptedWords_of_after hno hrun [] s.edges)
  rwa [State.behind, State.behind, List.nil_append, List.nil_append, List.length_append] at hlength

end Sys2Proof.Machine
end

section
/-! PROOFS. What a completed command has done, said once (`ExecCase`), and from it: the commands that raise nothing (R140),
that an error changes nothing else (R146), that reads have no side effects (R45); and that the two units do not see each
other's array (R97(d), R104(d)). -/

namespace Sys2Proof

/-- The two commands that write an array (R45). -/
def Instr.IsObserve (i : Instr) : Prop := ∃ h, i = .bfObs h ∨ i = .llObs h

/-- Only an I-form command has a range (R62). -/
theorem Instr.OutOfRange.form_eq {p : Params} {i : Instr} (h : i.OutOfRange p) : i.opcode.form = .index := by
  cases i with
  | csrRd | bfRdw | llRdb => rfl
  | _ => exact h.elim

end Sys2Proof

namespace Sys2Proof.Machine

/-! ## What a command has done -/

/-- The four ways a command completes: an answer, `BadIndex`, or one of the two Observes. -/
inductive ExecCase (i : Instr) (s t : State) : Prop
  | answer (v : Word) (hi : ¬i.IsObserve) (ht : t = s.respond .ok v)
  | badIndex (hi : i.OutOfRange s.params) (ht : t = s.raise .badIndex)
  | bfObs (h : Word) (hi : i = .bfObs h) (ht : t = (s.setBvBits (subHashes s.params h)).respond .ok 0#64)
  | llObs (h : Word) (hi : i = .llObs h)
      (ht : t = (s.raiseBk (bucketIndex s.params h) (rank s.params h)).respond .ok 0#64)

/-- An I-form command, by the element at its address. -/
theorem ExecCase.of_respondIndexed {i : Instr} {s : State} {element : Option Word} (hi : ¬i.IsObserve)
    (hnone : element = none → i.OutOfRange s.params) : ExecCase i s (s.respondIndexed element) := by
  cases element with
  | some v => exact .answer v hi rfl
  | none => exact .badIndex (hnone rfl) rfl

theorem execCase_of_exec {i : Instr} {s t : State} (h : exec i s = .next t) : ExecCase i s t := by
  cases i with
  | csrRd a => cases h; exact .of_respondIndexed (by simp [Instr.IsObserve]) State.csr?_eq_none.1
  | bfRdw q => cases h; exact .of_respondIndexed (by simp [Instr.IsObserve]) State.bvWordAt?_eq_none.1
  | llRdb j => cases h; exact .of_respondIndexed (by simp [Instr.IsObserve]) State.bkAt?_eq_none.1
  | bfObs hash => cases h; exact .bfObs hash rfl rfl
  | llObs hash => cases h; exact .llObs hash rfl rfl
  | _ => cases h; exact .answer _ (by simp [Instr.IsObserve]) rfl

/-! ## Errors, and commands that raise none (R140, R146) -/

/-- Settles O25: a command that is not I-form has no range to leave, and each other way to complete is a response `OK` with
the flags as they were. -/
theorem nineCommandsNeverRaise : Obligations.NineCommandsNeverRaise := by
  intro i s hform
  obtain ⟨t, ht, -⟩ := exec_effect i s
  refine ⟨t, ?_⟩
  cases execCase_of_exec ht with
  | answer v _ hst => exact ⟨v, ht, by simp [hst]⟩
  | badIndex hi _ => exact absurd hi.form_eq hform
  | bfObs _ _ hst => exact ⟨0#64, ht, by simp [hst]⟩
  | llObs _ _ hst => exact ⟨0#64, ht, by simp [hst]⟩

/-- A state whose last response is `OK` has no other last response. -/
theorem eq_ok_of_append_eq {l : List Response} {r : Response} {v : Word}
    (h : l ++ [{ status := .ok, data := v }] = l ++ [r]) : r.status = .ok := by
  obtain rfl : { status := .ok, data := v } = r := by simpa using h
  rfl

/-- Settles O24: an error response is the one that `raise` produces, and `raise` sets one flag besides. -/
theorem errorsChangeNothingElse : Obligations.ErrorsChangeNothingElse := by
  intro w s t r hrun hrsp herr
  obtain ⟨i, -, hw⟩ | ⟨-, hw⟩ := runWord_cases w s <;> rw [hw] at hrun
  · right
    cases execCase_of_exec hrun with
    | answer v _ ht => rw [ht] at hrsp; exact absurd (eq_ok_of_append_eq hrsp) herr
    | badIndex _ ht => exact ht
    | bfObs _ _ ht =>
      rw [ht, State.respond_rsp, State.setBvBits_rsp] at hrsp
      exact absurd (eq_ok_of_append_eq hrsp) herr
    | llObs _ _ ht => rw [ht] at hrsp; exact absurd (eq_ok_of_append_eq hrsp) herr
  · cases hrun
    exact .inl rfl

/-! ## Reads (R45) -/

/-- Settles O49: but for the two Observes a command answers, or raises `BadIndex`. -/
theorem readsHaveNoSideEffects : Obligations.ReadsHaveNoSideEffects := by
  intro i s t hbf hll h
  cases execCase_of_exec h with
  | answer v _ ht => exact ⟨_, congrArg State.rsp ht, fun _ => ht, fun hne => absurd rfl hne⟩
  | badIndex _ ht => exact ⟨_, congrArg State.rsp ht, nofun, fun _ => ht⟩
  | bfObs hash hi _ => exact absurd hi (hbf hash)
  | llObs hash hi _ => exact absurd hi (hll hash)

/-! ## The two units (R97(d), R104(d)) -/

theorem State.respondIndexed_withBk (s : State) (bk : Cells 7) (element : Option Word) :
    { s with bk := bk }.respondIndexed element = { s.respondIndexed element with bk := bk } := by
  cases element <;> rfl

theorem State.respondIndexed_withBv (s : State) (bv : Cells 64) (element : Option Word) :
    { s with bv := bv }.respondIndexed element = { s.respondIndexed element with bv := bv } := by
  cases element <;> rfl

/-- `BF.RDW` commutes with a change of `BK`. -/
theorem exec_bfRdw_withBk (q : Word) (s : State) (bk : Cells 7) :
    exec (.bfRdw q) { s with bk := bk } = .next { s.respondIndexed (s.bvWordAt? q) with bk := bk } :=
  congrArg _ (s.respondIndexed_withBk bk (s.bvWordAt? q))

/-- The LLE commands commute with a change of `BV`. -/
theorem exec_withBv {a : Word} {i : Instr} (hi : i ∈ [Instr.llObs a, .llEst, .llSest, .llHest, .llRdb a]) {s t : State}
    (ht : exec i s = .next t) (bv : Cells 64) : exec i { s with bv := bv } = .next { t with bv := bv } := by
  simp only [List.mem_cons, List.not_mem_nil, or_false] at hi
  obtain rfl | rfl | rfl | rfl | rfl := hi <;> cases ht
  · rfl
  · rfl
  · rfl
  · rfl
  · exact congrArg _ (s.respondIndexed_withBv bv (s.bkAt? a))

/-- `BK` is left by every command but `LL.OBS`. -/
theorem exec_bk_eq {i : Instr} {s t : State} (hi : ∀ h, i ≠ .llObs h) (h : exec i s = .next t) : t.bk = s.bk := by
  obtain hbk | ⟨hash, hobs, -⟩ := (effect_of_exec h).bk
  · exact hbk
  · exact absurd hobs (hi hash)

/-- Settles O50: each unit's commands commute with a change of the other unit's array, and only the other unit's Observe
changes it. -/
theorem unitsDoNotInterfere : Obligations.UnitsDoNotInterfere := by
  refine ⟨fun a s t bk i hi h => ⟨exec_bk_eq ?_ h, ?_⟩,
    fun a s t bv i hi h => ⟨(exec_filter_eq ?_ h).2, exec_withBv hi h bv⟩⟩
  · rintro hash rfl
    simp at hi
  · obtain hi | hi : i ∈ [Instr.bfObs a, .bfChk a] ∨ i = .bfRdw a := by simpa [or_assoc] using hi
    · exact (exec_withBk hi h bk).2
    · subst hi
      cases h
      exact exec_bfRdw_withBk a s bk
  · rintro hash rfl
    simp at hi

end Sys2Proof.Machine
end

section
/-! PROOFS. Runs of Observes: which bits and which counters a list of commands leaves (R93, R102), and from it that order
and multiplicity do not matter (R53), that counters are maximal ranks (R104(b)), and that a merge is a replay (R168). -/

namespace Sys2Proof.Machine

/-! ## What one command does to the arrays -/

/-- The bits after a command: those set before, and those a `BF.OBS` selects. -/
theorem ExecCase.bvBit_iff {i : Instr} {s t : State} (h : ExecCase i s t) (n : Nat) :
    t.bvBit n = true ↔ s.bvBit n = true ∨ ∃ hash, i = .bfObs hash ∧ n ∈ subHashes s.params hash := by
  cases h with
  | answer v hi ht =>
    have hno : ∀ hash, i ≠ .bfObs hash := fun hash hbf => hi ⟨hash, .inl hbf⟩
    simp [ht, hno]
  | badIndex hi ht =>
    have hno : ∀ hash, i ≠ .bfObs hash := by rintro hash rfl; exact hi
    simp [ht, hno]
  | bfObs hash hi ht => simp [ht, hi, State.bvBit_setBvBits]
  | llObs hash hi ht => simp [ht, hi]

/-- The counters after a command, each by its lower bounds: those it had before, and the rank that an `LL.OBS` of its index
raises it to. -/
theorem ExecCase.le_bkCounter_iff {i : Instr} {s t : State} (h : ExecCase i s t) {bound : Nat}
    (hbk : s.bk.wf bound = true) (j n : Nat) :
    n ≤ (t.bkCounter j).toNat ↔
      n ≤ (s.bkCounter j).toNat ∨ ∃ hash, i = .llObs hash ∧ bucketIndex s.params hash = j ∧ n ≤ rank s.params hash := by
  cases h with
  | answer v hi ht =>
    have hno : ∀ hash, i ≠ .llObs hash := fun hash hll => hi ⟨hash, .inr hll⟩
    simp [ht, hno]
  | badIndex hi ht =>
    have hno : ∀ hash, i ≠ .llObs hash := by rintro hash rfl; exact hi
    simp [ht, hno]
  | bfObs hash hi ht => simp [ht, hi]
  | llObs hash hi ht =>
    have hrank : rank s.params hash ≤ 64 := (rank_le s.params hash).trans (Nat.sub_le ..)
    rw [ht, State.respond_bkCounter, State.bkCounter_raiseBk hbk hrank]
    by_cases hj : j = bucketIndex s.params hash
    · simp [hi, hj]
    · simp [hi, hj, eq_comm]

/-! ## What a list of commands does to them -/

/-- The arrays of `t`, reached from `s` by a list of commands: they depend on which Observes stand in the list. -/
structure Observed (l : List Instr) (s t : State) : Prop where
  params : t.params = s.params
  inv : t.Inv
  bvBit_iff : ∀ n, t.bvBit n = true ↔ s.bvBit n = true ∨ ∃ h, .bfObs h ∈ l ∧ n ∈ subHashes s.params h
  le_bkCounter_iff : ∀ j n, n ≤ (t.bkCounter j).toNat ↔
    n ≤ (s.bkCounter j).toNat ∨ ∃ h, .llObs h ∈ l ∧ bucketIndex s.params h = j ∧ n ≤ rank s.params h

theorem Observed.nil {s : State} (hs : s.Inv) : Observed [] s s where
  params := rfl
  inv := hs
  bvBit_iff := by simp
  le_bkCounter_iff := by simp

theorem Observed.cons {i : Instr} {l : List Instr} {s u t : State} (hs : s.Inv) (hi : exec i s = .next u)
    (hl : Observed l u t) : Observed (i :: l) s t := by
  have hparams : u.params = s.params := (effect_of_exec hi).params
  refine ⟨hl.params.trans hparams, hl.inv, fun n => ?_, fun j n => ?_⟩
  · rw [hl.bvBit_iff, (execCase_of_exec hi).bvBit_iff, hparams]
    simp only [List.mem_cons, or_and_right, exists_or, or_assoc, eq_comm]
  · rw [hl.le_bkCounter_iff, (execCase_of_exec hi).le_bkCounter_iff hs.bkForm, hparams]
    simp only [List.mem_cons, or_and_right, exists_or, or_assoc, eq_comm]

theorem observed_of_runWords {l : List Instr} {s t : State} (hs : s.Inv)
    (h : runWords (l.map encode) s = .next t) : Observed l s t := by
  induction l generalizing s with
  | nil => cases h; exact .nil hs
  | cons i l ih =>
    obtain ⟨u, hu, heff⟩ := exec_effect i s
    rw [List.map_cons, runWords_cons_of_runWord ((runWord_encode i s).trans hu)] at h
    exact .cons hs hu (ih (heff.inv hs) h)

/-- From one state, lists with the same members leave the same bits and counters. -/
theorem Observed.arrays_eq {l l' : List Instr} {s t t' : State} (h : Observed l s t) (h' : Observed l' s t')
    (hmem : ∀ i, i ∈ l ↔ i ∈ l') : t.bv = t'.bv ∧ t.bk = t'.bk := by
  have hp : t'.params = t.params := h'.params.trans h.params.symm
  have hform := h'.inv.bvForm
  have hform' := h'.inv.bkForm
  rw [hp] at hform hform'
  refine ⟨State.bv_eq_of_bvBit_eq h.inv.bvForm hform fun n => Bool.eq_iff_iff.2 ?_,
    Cells.eq_of_read_eq _ _ h.inv.bkForm hform' fun j => BitVec.eq_of_toNat_eq (eq_of_forall_le_iff fun n => ?_)⟩
  · rw [h.bvBit_iff, h'.bvBit_iff]
    simp only [hmem]
  · refine (h.le_bkCounter_iff j n).trans (.trans ?_ (h'.le_bkCounter_iff j n).symm)
    simp only [hmem]

/-- Settles O51: the arrays are determined by the Observes that stand in the list. -/
theorem observesCommute : Obligations.ObservesCommute := fun _ _ _ _ _ hs _ hmem h h' =>
  (observed_of_runWords hs h).arrays_eq (observed_of_runWords hs h') hmem

/-! ## Counters are maximal ranks (R104(b)) -/

/-- A positive lower bound of a list's maximum is one of some member. -/
theorem le_foldr_max_iff {n : Nat} (l : List Nat) : n ≤ l.foldr max 0 ↔ n = 0 ∨ ∃ a ∈ l, n ≤ a := by
  induction l with
  | nil => simp
  | cons a l ih => rw [List.foldr_cons, le_max_iff, ih, List.exists_mem_cons_iff, or_left_comm]

/-- Settles O39: counter and maximum have the same lower bounds. -/
theorem countersAreMaximalRanks : Obligations.CountersAreMaximalRanks := by
  intro p hs t h j
  have hrun : runWords ((hs.map Instr.llObs).map encode) (State.resetOf p) = .next t := by rw [List.map_map]; exact h
  refine eq_of_forall_le_iff fun n => ?_
  rw [(observed_of_runWords (State.inv_resetOf p) hrun).le_bkCounter_iff, le_foldr_max_iff]
  simp [and_assoc]

/-! ## A merge is a replay (R168) -/

section Append

variable {l l' : List Instr} {r s s' t : State} (hs : Observed l r s) (hs' : Observed l' r s')
  (ht : Observed (l ++ l') r t)
include hs hs' ht

/-- From one state, both lists in one run set the bits that either sets. -/
theorem Observed.bvBit_append (n : Nat) : t.bvBit n = (s.bvBit n || s'.bvBit n) := by
  rw [Bool.eq_iff_iff, Bool.or_eq_true, hs.bvBit_iff, hs'.bvBit_iff, ht.bvBit_iff]
  simp only [List.mem_append, or_and_right, exists_or]
  exact or_or_distrib_left

/-- From one state, both lists in one run raise a counter to the larger of the two that they raise it to. -/
theorem Observed.bkCounter_append (j : Nat) :
    (t.bkCounter j).toNat = max (s.bkCounter j).toNat (s'.bkCounter j).toNat := by
  refine eq_of_forall_le_iff fun n => ?_
  rw [le_max_iff, hs.le_bkCounter_iff, hs'.le_bkCounter_iff, ht.le_bkCounter_iff]
  simp only [List.mem_append, or_and_right, exists_or]
  exact or_or_distrib_left

end Append

/-- The arrays of the merge of two states of one configuration are those of any third of it whose bits are the OR and whose
counters are the maxima. -/
theorem merge_eq {p : Params} {s s' t : State} (hs : s.Inv) (hs' : s'.Inv) (ht : t.Inv) (hp : s.params = p)
    (hp' : s'.params = p) (hpt : t.params = p) (hbits : ∀ n, t.bvBit n = (s.bvBit n || s'.bvBit n))
    (hcounters : ∀ j, (t.bkCounter j).toNat = max (s.bkCounter j).toNat (s'.bkCounter j).toNat) :
    mergeBv s s' = t.bv ∧ mergeBk s s' = t.bk := by
  obtain ⟨bvForm, bkForm, -, -⟩ := hs
  obtain ⟨bvForm', bkForm', -, -⟩ := hs'
  obtain ⟨bvFormT, bkFormT, -, -⟩ := ht
  rw [hp] at bvForm bkForm
  rw [hp'] at bvForm' bkForm'
  rw [hpt] at bvFormT bkFormT
  constructor
  · refine Cells.eq_of_read_eq _ _ (Cells.wf_mergeWith _ _ _ bvForm bvForm') bvFormT fun q => ?_
    refine (read_mergeBv bvForm bvForm' q).trans (State.bvWord_eq_of_bits fun b hb => ?_).symm
    rw [hbits, BitVec.getLsbD_or, State.getLsbD_bvWord _ _ _ hb, State.getLsbD_bvWord _ _ _ hb]
  · refine Cells.eq_of_read_eq _ _ (Cells.wf_mergeWith _ _ _ bkForm bkForm') bkFormT fun j => ?_
    exact BitVec.eq_of_toNat_eq ((toNat_read_mergeBk bkForm bkForm' j).trans (hcounters j).symm)

/-- Settles O52: the replay of both lists has the OR of the bits and the maxima of the counters, which is what
the merge computes. -/
theorem mergeEqualsReplay : Obligations.MergeEqualsReplay := by
  intro p l l' s s' t h h' hboth
  have hs := observed_of_runWords (State.inv_resetOf p) h
  have hs' := observed_of_runWords (State.inv_resetOf p) h'
  have ht := observed_of_runWords (State.inv_resetOf p) hboth
  have happend := ht
  rw [List.flatMap_append] at happend
  exact merge_eq hs.inv hs'.inv ht.inv hs.params hs'.params ht.params (hs.bvBit_append hs' happend)
    (hs.bkCounter_append hs' happend)

end Sys2Proof.Machine
end

section
/-! PROOFS. The Bloom filter's answers: `BF.CHK` (R94), how many bits one `BF.OBS` sets in an empty filter (R93), and the
reference function `FalsePositiveProbability` (R96). -/

namespace Sys2Proof.Machine

/-! ## BF.CHK (R94) -/

/-- The other answer of `BF.CHK`. -/
theorem exec_bfChk_eq_zero {h : Word} {s : State} (hclear : ∃ i ∈ subHashes s.params h, s.bvBit i = false) :
    exec (.bfChk h) s = .next { s with rsp := s.rsp ++ [{ status := .ok, data := 0#64 }] } := by
  have hall : (subHashes s.params h).all s.bvBit = false := by simpa using hclear
  rw [exec, execBfChk, hall]
  rfl

theorem subHashes_ne_nil (p : Params) (h : Word) : subHashes p h ≠ [] :=
  List.ne_nil_of_length_pos (p.bfK_pos.trans_eq (subHashes_length p h).symm)

/-- Settles O30: the two answers, of which an empty filter gives the second, since a hash has some slice; an observed hash
hits until reset, and so does another with the same slices. -/
theorem bfChkTestsSelectedBits : Obligations.BfChkTestsSelectedBits := by
  refine ⟨fun h => rfl, fun h s => ⟨exec_bfChk_eq_one_iff.2, exec_bfChk_eq_zero, fun hempty => exec_bfChk_eq_zero ?_⟩,
    fun h h' s t u n hsame ht hno hrun => ?_⟩
  · obtain ⟨i, hi⟩ := List.exists_mem_of_ne_nil _ (subHashes_ne_nil s.params h)
    exact ⟨i, hi, hempty i⟩
  · have hhits : t.Hits h' := by
      have hobs := hits_of_exec_bfObs ht
      rw [State.Hits, (effect_of_exec ht).params] at hobs ⊢
      rwa [hsame]
    exact exec_bfChk_eq_one_iff.2 (hhits.of_after hno hrun)

/-! ## The number of bits set (R93) -/

/-- The members of a list below a bound, counted. -/
theorem countP_range_mem {l : List Nat} {n : Nat} (h : ∀ i ∈ l, i < n) :
    (List.range n).countP (fun i => decide (i ∈ l)) = l.dedup.length := by
  rw [List.countP_eq_length_filter]
  refine ((List.perm_ext_iff_of_nodup (List.nodup_range.filter _) l.nodup_dedup).2 fun i => ?_).length_eq
  simpa using h i

/-- Settles O33: from the empty filter the set bits are the slices, each a valid bit index; there are k slices, k > 0. -/
theorem observeSetsDistinctSlices : Obligations.ObserveSetsDistinctSlices := by
  intro h p t ht
  refine ⟨?_, List.length_pos_of_ne_nil ?_, ?_⟩
  · have hbits : t.bvBit = fun i => decide (i ∈ subHashes p h) := by
      funext i
      rw [bvBit_of_exec_bfObs ht, State.bvBit_resetOf, Bool.false_or, State.resetOf_params]
    rw [hbits, countP_range_mem fun _ => subHashes_lt]
  · rw [ne_eq, List.dedup_eq_nil]
    exact subHashes_ne_nil p h
  · exact (List.dedup_sublist _).length_le.trans_eq (subHashes_length p h)

/-! ## FalsePositiveProbability (R96) -/

/-- The exponent of R96's function, without its sign: k*(n+0.5)/(m-1). -/
noncomputable def loadExponent (p : Params) (n : Nat) : ℝ := (p.bfK : ℝ) * ((n : ℝ) + 1 / 2) / ((p.bfM : ℝ) - 1)

theorem falsePositiveProbability_eq (p : Params) (n : Nat) :
    falsePositiveProbability p n = (1 - Real.exp (-loadExponent p n)) ^ p.bfK := by
  rw [falsePositiveProbability, loadExponent, neg_mul, neg_div]

theorem bfM_sub_one_pos (p : Params) : (0 : ℝ) < (p.bfM : ℝ) - 1 := by
  have hM : 1 < p.bfM := by have := p.width_constants; omega
  exact sub_pos.2 (Nat.one_lt_cast.2 hM)

theorem loadExponent_pos (p : Params) (n : Nat) : 0 < loadExponent p n := by
  have hK : (0 : ℝ) < p.bfK := Nat.cast_pos.2 p.bfK_pos
  have hM := bfM_sub_one_pos p
  unfold loadExponent
  positivity

theorem loadExponent_strictMono (p : Params) : StrictMono (loadExponent p) := by
  intro n n' hlt
  have hK : (0 : ℝ) < p.bfK := Nat.cast_pos.2 p.bfK_pos
  have hM := bfM_sub_one_pos p
  unfold loadExponent
  gcongr

/-- The probability that one bit is set: in (0, 1). -/
theorem one_sub_exp_mem (p : Params) (n : Nat) :
    0 < 1 - Real.exp (-loadExponent p n) ∧ 1 - Real.exp (-loadExponent p n) < 1 :=
  ⟨sub_pos.2 (Real.exp_lt_one_iff.2 (neg_neg_iff_pos.2 (loadExponent_pos p n))), sub_lt_self 1 (Real.exp_pos _)⟩

/-- Settles O53: the base lies in (0, 1) and rises with n, and the power k > 0 keeps both. -/
theorem falsePositiveProbabilityIncreases : Obligations.FalsePositiveProbabilityIncreases := by
  intro p
  refine ⟨fun n => ?_, fun n n' hlt => ?_⟩ <;> simp only [falsePositiveProbability_eq]
  · obtain ⟨hpos, hlt⟩ := one_sub_exp_mem p n
    exact ⟨pow_pos hpos _, pow_lt_one₀ hpos.le hlt p.bfK_pos.ne'⟩
  · have hexp : Real.exp (-loadExponent p n') < Real.exp (-loadExponent p n) :=
      Real.exp_lt_exp.2 (neg_lt_neg (loadExponent_strictMono p hlt))
    exact pow_lt_pow_left₀ (sub_lt_sub_left hexp 1) (one_sub_exp_mem p n).1.le p.bfK_pos.ne'

end Sys2Proof.Machine
end

section
/-! PROOFS. The laws of the three bit-run functions (R83). -/

namespace Sys2Proof.Machine

theorem cto_eq_ctz_not (x : Word) : cto x = ctz (~~~x) := by
  have hrun : ∀ n ≤ 64, (∀ i < n, (~~~x).getLsbD i = false) ↔ ∀ i < n, x.getLsbD i = true := by
    intro n hn
    refine forall₂_congr fun i hi => ?_
    have hi64 : i < 64 := hi.trans_le hn
    simp [hi64]
  refine le_antisymm (le_ctz (cto_le x) ((hrun _ (cto_le x)).2 fun _ => cto_run)) ?_
  exact le_cto (ctz_le _) ((hrun _ (ctz_le _)).1 fun _ => ctz_run)

/-- The bits of the run are among the bits counted. -/
theorem cto_le_popcnt (x : Word) : cto x ≤ popcnt x := by
  have hrun : (List.range (cto x)).countP (fun i => x.getLsbD i) = (List.range (cto x)).length :=
    List.countP_eq_length.2 fun i hi => cto_run (List.mem_range.1 hi)
  calc cto x = (List.range (cto x)).countP fun i => x.getLsbD i := by rw [hrun, List.length_range]
    _ ≤ popcnt x := (List.range_sublist.2 (cto_le x)).countP_le

/-- A bit is set in the word or in its complement. -/
theorem popcnt_add_popcnt_not (x : Word) : popcnt x + popcnt (~~~x) = 64 := by
  have hnot : popcnt (~~~x) = (List.range 64).countP fun i => !x.getLsbD i := by
    refine List.countP_congr fun i hi => ?_
    simp [List.mem_range.1 hi]
  rw [hnot, popcnt]
  have hsum := List.length_eq_countP_add_countP (l := List.range 64) fun i => x.getLsbD i
  simpa using hsum.symm

/-- A set bit 0 begins a run of 1-bits. -/
theorem cto_ne_zero_iff (x : Word) : cto x ≠ 0 ↔ x.getLsbD 0 = true := by
  refine ⟨fun h => cto_run (Nat.pos_of_ne_zero h), fun h => ?_⟩
  have hone : 1 ≤ cto x := le_cto (by decide) fun i hi => by rwa [Nat.lt_one_iff.1 hi]
  exact Nat.ne_of_gt hone

/-- A clear bit 0 begins a run of 0-bits. -/
theorem ctz_ne_zero_iff (x : Word) : ctz x ≠ 0 ↔ x.getLsbD 0 = false := by
  refine ⟨fun h => ctz_run (Nat.pos_of_ne_zero h), fun h => ?_⟩
  have hone : 1 ≤ ctz x := le_ctz (by decide) fun i hi => by rwa [Nat.lt_one_iff.1 hi]
  exact Nat.ne_of_gt hone

/-- Settles O47: the last law is the case split on bit 0, which begins a run of its own kind and no other. -/
theorem bitRunLaws : Obligations.BitRunLaws := by
  refine fun x => ⟨cto_eq_ctz_not x, cto_le_popcnt x, popcnt_add_popcnt_not x, ?_⟩
  cases hbit : x.getLsbD 0 with
  | true =>
    have hctz : ¬ctz x ≠ 0 := fun h => Bool.false_ne_true (((ctz_ne_zero_iff x).1 h).symm.trans hbit)
    exact .inl ⟨(cto_ne_zero_iff x).2 hbit, not_ne_iff.1 hctz⟩
  | false =>
    have hcto : ¬cto x ≠ 0 := fun h => Bool.false_ne_true (hbit.symm.trans ((cto_ne_zero_iff x).1 h))
    exact .inr ⟨not_ne_iff.1 hcto, (ctz_ne_zero_iff x).2 hbit⟩

end Sys2Proof.Machine
end

section
/-! PROOFS. The laws of the estimates: they depend on the multiset of counters alone (R114), the first two never saturate
(R116), and without an empty bucket the third takes its raw value (R113(b)). -/

namespace Sys2Proof.Machine

/-! ## The order of the buckets (R114) -/

section Perm

variable {p p' : Params} (hp : p.llB = p'.llB) {bk bk' : List Nat} (h : bk.Perm bk')
include hp h

theorem estimate_perm : estimate p bk = estimate p' bk' := by
  rw [estimate, estimate, Params.alpha, Params.alpha, sumOf, sumOf, hp, h.sum_eq]

theorem superEstimate_perm : superEstimate p bk = superEstimate p' bk' := by
  have hprefix (b : Nat) : prefixSum b bk = prefixSum b bk' :=
    prefixSum_eq_of_perm ((List.perm_insertionSort _ bk').trans h.symm) (List.pairwise_insertionSort _ bk') b
  rw [superEstimate, superEstimate, hp, hprefix]

theorem rawEstimate_perm : rawEstimate p bk = rawEstimate p' bk' := by
  have hsum : harmonicSum bk = harmonicSum bk' := (h.map _).sum_eq
  rw [rawEstimate, rawEstimate, Params.alpha, Params.alpha, hp, hsum]

theorem hyperEstimate_perm : hyperEstimate p bk = hyperEstimate p' bk' := by
  have hempty : emptyCount bk = emptyCount bk' := h.count_eq 0
  rw [hyperEstimate, hyperEstimate, rawEstimate_perm hp h, hp, hempty]

end Perm

/-- Settles O43: each estimate reads the counters by sums, a count and a sorted copy. -/
theorem estimatesIgnoreBucketOrder : Obligations.EstimatesIgnoreBucketOrder := by
  intro s s' hP hperm i hi
  have hB : s.params.llB = s'.params.llB := by rw [Params.llB, Params.llB, hP]
  simp only [List.mem_cons, List.not_mem_nil, or_false] at hi
  obtain rfl | rfl | rfl := hi
  · exact ⟨_, rfl, by rw [estimate_perm hB hperm]; rfl⟩
  · exact ⟨_, rfl, by rw [superEstimate_perm hB hperm]; rfl⟩
  · exact ⟨_, rfl, by rw [hyperEstimate_perm hB hperm]; rfl⟩

/-! ## Ranges (R116) -/

theorem State.Inv.le_of_mem_buckets {s : State} (hs : s.Inv) {v : Nat} (hv : v ∈ s.buckets) :
    v ≤ 64 - s.params.llP.val := by
  obtain ⟨j, -, rfl⟩ := List.mem_map.1 hv
  exact hs.bkRange j

/-- A mean of counters is at most 64 - P, so with a factor of at most 0.8 * 2^P the rounded value is below 2^64. -/
theorem floor_mul_exp2_le {p : Params} {l : List Nat} (hl : ∀ v ∈ l, v ≤ 64 - p.llP.val) {q : ℝ}
    (hqB : q ≤ 8 / 10 * p.llB) : ⌊q * (2 : ℝ) ^ ((l.sum : ℝ) / l.length) + 1 / 2⌋₊ ≤ 2 ^ 64 - 1 := by
  have hsum : (l.sum : ℝ) ≤ (64 - p.llP.val : ℕ) * (l.length : ℝ) := by
    have hle := List.sum_le_card_nsmul l _ hl
    rw [smul_eq_mul, Nat.mul_comm] at hle
    exact_mod_cast hle
  have hmean : (l.sum : ℝ) / l.length ≤ (64 - p.llP.val : ℕ) :=
    div_le_of_le_mul₀ (Nat.cast_nonneg _) (Nat.cast_nonneg _) hsum
  have hB : (p.llB : ℝ) * 2 ^ (64 - p.llP.val) = 2 ^ 64 := by
    rw [Params.llB, Nat.cast_pow, Nat.cast_two, ← pow_add]
    congr 1
    omega
  have hexp : (2 : ℝ) ^ ((l.sum : ℝ) / l.length) ≤ 2 ^ (64 - p.llP.val) := by
    rw [← Real.rpow_natCast]
    exact Real.rpow_le_rpow_of_exponent_le one_le_two hmean
  have hval : q * (2 : ℝ) ^ ((l.sum : ℝ) / l.length) + 1 / 2 ≤ (2 ^ 64 - 1 : ℕ) := by
    calc q * (2 : ℝ) ^ ((l.sum : ℝ) / l.length) + 1 / 2
        ≤ 8 / 10 * p.llB * 2 ^ (64 - p.llP.val) + 1 / 2 := by gcongr
      _ = 8 / 10 * 2 ^ 64 + 1 / 2 := by rw [mul_assoc, hB]
      _ ≤ (2 ^ 64 - 1 : ℕ) := by norm_num
  exact (Nat.floor_le_floor hval).trans_eq (Nat.floor_natCast _)

/-- R8's constant as a real number. -/
theorem cast_alpha_le (p : Params) : (p.alpha : ℝ) ≤ 7213 / 10000 := by
  have hle : ((p.alpha : ℚ) : ℝ) ≤ ((7213 / 10000 : ℚ) : ℝ) := Rat.cast_le.2 (alpha_bounds p.llB).2
  push_cast at hle
  exact hle

theorem State.Inv.estimate_le {s : State} (hs : s.Inv) : estimate s.params s.buckets ≤ 2 ^ 64 - 1 := by
  have halpha := cast_alpha_le s.params
  rw [estimate_eq_floor, ← s.length_buckets]
  refine floor_mul_exp2_le (fun _ => hs.le_of_mem_buckets) ?_
  rw [s.length_buckets]
  gcongr
  linarith

/-- The front of the ascending copy is as long as its cutoff says. -/
theorem State.length_take_cutoff (s : State) :
    ((s.buckets.insertionSort (· ≤ ·)).take (cutoff s.params.llB)).length = cutoff s.params.llB := by
  rw [List.length_take, List.length_insertionSort, s.length_buckets, min_eq_left]
  rw [cutoff]
  omega

theorem State.Inv.superEstimate_le {s : State} (hs : s.Inv) : superEstimate s.params s.buckets ≤ 2 ^ 64 - 1 := by
  by_cases hcut : cutoff s.params.llB = 0
  · rw [superEstimate, if_pos hcut]
    exact Nat.zero_le _
  · have hle : (cutoff s.params.llB : ℝ) ≤ s.params.llB := by
      rw [cutoff]
      exact_mod_cast (by omega : 9 * s.params.llB / 10 ≤ s.params.llB)
    rw [superEstimate_eq_floor _ hcut, prefixSum]
    have hbound := floor_mul_exp2_le (p := s.params) (q := 79402 / 100000 * cutoff s.params.llB)
      (l := (s.buckets.insertionSort (· ≤ ·)).take (cutoff s.params.llB))
      (fun v hv => hs.le_of_mem_buckets ((List.mem_insertionSort _).1 (List.mem_of_mem_take hv))) (by linarith)
    rwa [s.length_take_cutoff] at hbound

/-- Settles O44: ALPHA and 0.79402 are both below 0.8, and no mean of counters exceeds 64 - P. -/
theorem plainEstimatesNeverSaturate : Obligations.PlainEstimatesNeverSaturate := fun _ hs =>
  ⟨hs.estimate_le, hs.superEstimate_le⟩

/-! ## No empty bucket (R113(b)) -/

/-- R8's constant is at least 5/8 from eight buckets on. -/
theorem le_alpha {b : Nat} (hb : 8 ≤ b) : 5 / 8 ≤ alpha b := by
  have hb' : (8 : Rat) ≤ b := by exact_mod_cast hb
  unfold alpha
  split_ifs
  · norm_num
  · norm_num
  · norm_num
  · have hterm : (1079 / 1000 : Rat) / b ≤ 1079 / 1000 / 8 := div_le_div_of_nonneg_left (by norm_num) (by norm_num) hb'
    rw [le_div_iff₀ (by positivity)]
    linarith

/-- Each bucket that is not empty adds at most 1/2 to the harmonic sum. -/
theorem harmonicSum_le {bk : List Nat} (h : bk.count 0 = 0) : harmonicSum bk ≤ bk.length / 2 := by
  have hterm : ∀ x ∈ bk.map fun v => 1 / (2 : Rat) ^ v, x ≤ 1 / 2 := by
    intro x hx
    obtain ⟨v, hv, rfl⟩ := List.mem_map.1 hx
    have hv0 : v ≠ 0 := fun hv0 => List.count_eq_zero.1 h (hv0 ▸ hv)
    have hpow : (2 : Rat) ≤ 2 ^ v := le_self_pow₀ one_le_two hv0
    exact one_div_le_one_div_of_le two_pos hpow
  have hsum := List.sum_le_card_nsmul _ _ hterm
  rwa [List.length_map, nsmul_eq_mul, mul_one_div] at hsum

theorem harmonicSum_pos {bk : List Nat} (h : bk ≠ []) : 0 < harmonicSum bk := by
  refine List.sum_pos _ (fun x hx => ?_) (by simpa using h)
  obtain ⟨v, -, rfl⟩ := List.mem_map.1 hx
  positivity

/-- With B counters, none of them 0, B/Z is at least 2, so raw at least 4*ALPHA*B. -/
theorem le_rawEstimate {p : Params} {bk : List Nat} (hlen : bk.length = p.llB) (hcount : bk.count 0 = 0)
    (hB : 8 ≤ p.llB) : 5 / 2 * (p.llB : Rat) ≤ rawEstimate p bk := by
  have halpha : 5 / 8 ≤ p.alpha := le_alpha hB
  have hpos : 0 < harmonicSum bk := harmonicSum_pos (List.ne_nil_of_length_pos (hlen ▸ p.llB_pos))
  have hsum := harmonicSum_le hcount
  rw [hlen] at hsum
  have hratio : 2 ≤ (p.llB : Rat) / harmonicSum bk := by
    rw [le_div_iff₀ hpos]
    linarith
  calc 5 / 2 * (p.llB : Rat) = 2 * p.llB * (5 / 8) * 2 := by ring
    _ ≤ 2 * p.llB * p.alpha * (p.llB / harmonicSum bk) := by gcongr
    _ = rawEstimate p bk := rfl

/-- Settles O45: the small range needs an empty bucket; without one the harmonic sum is at most B/2. -/
theorem noEmptyBucketTakesRawBranch : Obligations.NoEmptyBucketTakesRawBranch := by
  intro s hcount
  refine ⟨hyperEstimate_of_not_small fun hsmall => ?_, le_rawEstimate s.length_buckets hcount⟩
  exact absurd hcount (Nat.ne_of_gt hsmall.2)

end Sys2Proof.Machine
end
